-- ==== Sys2Proof/Word.lean ====
section
/-! DEFINITION. The word, the byte and the sixteen-word array of the spec (00_scope.md R7, R9). -/

namespace Sys2Proof

/-- A word: an unsigned integer in [0, 2^32) (R9); all arithmetic on it is modulo 2^32 (R100). -/
abbrev Word := BitVec 32

/-- A byte: an unsigned integer in [0, 256) (R9). -/
abbrev Byte := BitVec 8

/-- An array of sixteen words: the shape of S, W and F (R20, R27). -/
abbrev Block := Vector Word 16

end Sys2Proof
end

