-- ==== Sys2Proof/Syntax.lean ====
section
/-! DEFINITION. The eleven commands as syntax, one constructor per row of spec/opcode_table.json (30_encoding.md R68). -/

namespace Sys2Proof

/-- The sections SETW addresses, in the order of their codes 0, 1, 2 (R42, R68). The counter is in none of them. -/
inductive Section where
  | const
  | key
  | nonce
deriving DecidableEq, Repr

/-- The arrays GETST and SER select, in the order of their codes 0, 1, 2 (R68, R135): S, W, F. -/
inductive Selector where
  | initial
  | intermediate
  | final
deriving DecidableEq, Repr

/-- A command with its operands. The operands of a signed field are integers and those of a length field are naturals
(R64); WellFormed says which values the encoding can carry. -/
inductive Instr where
  /-- INIT: key length and nonce length in bytes, the counter, the key words and the nonce words of the packet (R90). -/
  | init (klen nlen : Nat) (ctr : Word) (key nonce : List Word)
  /-- SETW: section, index in it, value (R92). -/
  | setw (sec : Section) (idx : Int) (v : Word)
  /-- INCR: the unsigned delta (R94). -/
  | incr (delta : Word)
  /-- GETCTR (R96). -/
  | getctr
  /-- GETST: the selected array as sixteen words (R135). -/
  | getst (sel : Selector)
  /-- SER: the selected array as 64 little-endian bytes (R136). -/
  | ser (sel : Selector)
  /-- COMPUTE (R126). -/
  | compute
  /-- ADD32 (R101). -/
  | add32 (a b : Word)
  /-- ROTL32: value, then amount, as the assembler writes them (R72, R103). -/
  | rotl32 (v : Word) (n : Int)
  /-- XOR32 (R105). -/
  | xor32 (a b : Word)
  /-- QROUND (R111). -/
  | qround (a b c d : Word)
deriving DecidableEq, Repr

end Sys2Proof
end

