-- ==== Sys2Proof/WellFormed.lean ====
section
/-! DEFINITION. Which commands have an encoding: the ranges of the header fields and the length of the payload
(30_encoding.md R62, R63, R64). A command outside its operation's valid range (SETW key 8) is well-formed: it is
encoded, and answered with its error. -/

namespace Sys2Proof

/-- `ceil(n/4)`, computed as `(n + 3) div 4` (R63): the words that carry `n` bytes. -/
def ceilWords (n : Nat) : Nat := (n + 3) / 4

/-- An 8-bit two's-complement field holds [-128, 127] (R64). -/
def fitsSigned8 (n : Int) : Bool := decide (-128 ≤ n) && decide (n < 128)

/-- An 8-bit unsigned length field holds [0, 255] (R64). -/
def fitsUnsigned8 (n : Nat) : Bool := decide (n < 256)

/-- The command can be written as a packet (R62 to R64). -/
def WellFormed : Instr → Bool
  | .init klen nlen _ key nonce =>
    fitsUnsigned8 klen && fitsUnsigned8 nlen &&
      decide (key.length = ceilWords klen) && decide (nonce.length = ceilWords nlen)
  | .setw _ idx _ => fitsSigned8 idx
  | .incr _ => true
  | .getctr => true
  | .getst _ => true
  | .ser _ => true
  | .compute => true
  | .add32 _ _ => true
  | .rotl32 _ n => fitsSigned8 n
  | .xor32 _ _ => true
  | .qround _ _ _ _ => true

end Sys2Proof
end

