-- ==== Sys2Proof/Decode.lean ====
section
/-! DEFINITION. From stream words to commands and back: the header's fields, the packet length, the illegal
encodings, the decoder and the encoder (30_encoding.md R61 to R71), and the byte order of words (20_memory.md R43 to R46). -/

namespace Sys2Proof

/-! ### Bytes and words -/

/-- `le_word` (R11, R44): the first byte is the least significant. -/
def leWord (b0 b1 b2 b3 : Byte) : Word :=
  BitVec.ofNat 32 (b0.toNat + 256 * b1.toNat + 65536 * b2.toNat + 16777216 * b3.toNat)

/-- `le_bytes` (R11, R45): the least significant byte first. -/
def leBytes (v : Word) : List Byte :=
  [v.extractLsb' 0 8, v.extractLsb' 8 8, v.extractLsb' 16 8, v.extractLsb' 24 8]

/-- Bytes packed four to a word, the first in bits 7:0 (R46). A last word that the bytes do not fill has zeros in its
upper bytes; the engine ignores them (R64). -/
def wordsOfBytes : List Byte → List Word
  | b0 :: b1 :: b2 :: b3 :: rest => leWord b0 b1 b2 b3 :: wordsOfBytes rest
  | [b0, b1, b2] => [leWord b0 b1 b2 0]
  | [b0, b1] => [leWord b0 b1 0 0]
  | [b0] => [leWord b0 0 0 0]
  | [] => []

/-- The words a byte-wide transport has completed (R46): bytes short of a whole word are no word yet. -/
def wholeWordsOfBytes : List Byte → List Word
  | b0 :: b1 :: b2 :: b3 :: rest => leWord b0 b1 b2 b3 :: wholeWordsOfBytes rest
  | _ => []

/-- Words laid out as bytes, each least significant byte first (R45, R46). -/
def bytesOfWords (ws : List Word) : List Byte := ws.flatMap leBytes

/-! ### The header word -/

/-- The field op = H[7:0] (R61). -/
def opField (h : Word) : Byte := h.extractLsb' 0 8
/-- The field f1 = H[15:8] (R61). -/
def f1Field (h : Word) : Byte := h.extractLsb' 8 8
/-- The field f2 = H[23:16] (R61). -/
def f2Field (h : Word) : Byte := h.extractLsb' 16 8
/-- The field f3 = H[31:24] (R61). -/
def f3Field (h : Word) : Byte := h.extractLsb' 24 8

/-- The eleven operations of the opcode map (R68). -/
inductive Op where
  | init | setw | incr | getctr | getst | ser | compute | add32 | rotl32 | xor32 | qround
deriving DecidableEq, Repr

/-- The opcode of an operation (R68). -/
def Op.code : Op → Nat
  | .init => 0x01
  | .setw => 0x02
  | .incr => 0x03
  | .getctr => 0x04
  | .getst => 0x05
  | .ser => 0x06
  | .compute => 0x07
  | .add32 => 0x10
  | .rotl32 => 0x11
  | .xor32 => 0x12
  | .qround => 0x13

/-- The operation an opcode names, if any (R68). -/
def opOf (op : Byte) : Option Op :=
  match op.toNat with
  | 0x01 => some .init
  | 0x02 => some .setw
  | 0x03 => some .incr
  | 0x04 => some .getctr
  | 0x05 => some .getst
  | 0x06 => some .ser
  | 0x07 => some .compute
  | 0x10 => some .add32
  | 0x11 => some .rotl32
  | 0x12 => some .xor32
  | 0x13 => some .qround
  | _ => none

/-- A row of the opcode map: the header selects the operation when `H and mask = pattern` (R68). -/
structure TableRow where
  op : Op
  pattern : Word
  mask : Word
deriving DecidableEq, Repr

/-- The opcode map with the exact pairs of its `match_any` column: two rows each for SETW, GETST and SER (R68). The
decoder is written from the fields; the table stands beside it to be held against it. -/
def opcodeTable : List TableRow := [
  ⟨.init, 0x00000001, 0xFF0000FF⟩,
  ⟨.setw, 0x00000002, 0xFF00FEFF⟩, ⟨.setw, 0x00000202, 0xFF00FFFF⟩,
  ⟨.incr, 0x00000003, 0xFFFFFFFF⟩,
  ⟨.getctr, 0x00000004, 0xFFFFFFFF⟩,
  ⟨.getst, 0x00000005, 0xFFFFFEFF⟩, ⟨.getst, 0x00000205, 0xFFFFFFFF⟩,
  ⟨.ser, 0x00000006, 0xFFFFFEFF⟩, ⟨.ser, 0x00000206, 0xFFFFFFFF⟩,
  ⟨.compute, 0x00000007, 0xFFFFFFFF⟩,
  ⟨.add32, 0x00000010, 0xFFFFFFFF⟩,
  ⟨.rotl32, 0x00000011, 0xFFFF00FF⟩,
  ⟨.xor32, 0x00000012, 0xFFFFFFFF⟩,
  ⟨.qround, 0x00000013, 0xFFFFFFFF⟩]

/-- The payload words of an operation, which for INIT depend on the two length fields (R62, R63). -/
def payloadWords (o : Op) (f1 f2 : Byte) : Nat :=
  match o with
  | .init => 1 + ceilWords f1.toNat + ceilWords f2.toNat
  | .setw => 1
  | .incr => 1
  | .getctr => 0
  | .getst => 0
  | .ser => 0
  | .compute => 0
  | .add32 => 2
  | .rotl32 => 1
  | .xor32 => 2
  | .qround => 4

/-- `plen(H)`: the length of the packet in words, header included; 1 for an undefined opcode (R63). -/
def plen (h : Word) : Nat :=
  match opOf (opField h) with
  | some o => 1 + payloadWords o (f1Field h) (f2Field h)
  | none => 1

/-! ### Illegal encodings -/

/-- Why a header word is illegal: the four cases of R69. -/
inductive Illegal where
  /-- R69 case 1. -/
  | undefinedOpcode
  /-- R69 case 2. -/
  | reservedField
  /-- R69 case 3. -/
  | undefinedSection
  /-- R69 case 4. -/
  | undefinedSelector
deriving DecidableEq, Repr

/-- The operation does not use f1, which must then be zero (R61, R62, R69). -/
def Op.f1Reserved : Op → Bool
  | .init => false
  | .setw => false
  | .incr => true
  | .getctr => true
  | .getst => false
  | .ser => false
  | .compute => true
  | .add32 => true
  | .rotl32 => false
  | .xor32 => true
  | .qround => true

/-- The operation does not use f2, which must then be zero (R61, R62, R69). -/
def Op.f2Reserved : Op → Bool
  | .init => false
  | .setw => false
  | .incr => true
  | .getctr => true
  | .getst => true
  | .ser => true
  | .compute => true
  | .add32 => true
  | .rotl32 => true
  | .xor32 => true
  | .qround => true

/-- A field of the header that its operation reserves is not zero (R69 case 2). -/
def reservedFieldSet (o : Op) (h : Word) : Bool :=
  f3Field h != 0 || (o.f2Reserved && f2Field h != 0) || (o.f1Reserved && f1Field h != 0)

/-- The section with this code (R42, R68). -/
def sectionOf (f1 : Byte) : Option Section :=
  match f1.toNat with
  | 0 => some .const
  | 1 => some .key
  | 2 => some .nonce
  | _ => none

/-- The section's code (R42, R68). -/
def sectionCode : Section → Nat
  | .const => 0
  | .key => 1
  | .nonce => 2

/-- The selector with this code (R68, R135). -/
def selectorOf (f1 : Byte) : Option Selector :=
  match f1.toNat with
  | 0 => some .initial
  | 1 => some .intermediate
  | 2 => some .final
  | _ => none

/-- The selector's code (R68, R135). -/
def selectorCode : Selector → Nat
  | .initial => 0
  | .intermediate => 1
  | .final => 2

/-! ### The decoder -/

/-- What the decoder makes of the words at the head of the command stream. -/
inductive Decoded where
  /-- A legal packet and the words after it. -/
  | command (i : Instr) (rest : List Word)
  /-- An illegal packet, consumed whole, and the words after it (R69). -/
  | illegal (why : Illegal) (rest : List Word)
  /-- Fewer words than the packet has: it cannot be performed yet (R71; 93_implementation_defined.md U10). -/
  | incomplete
deriving DecidableEq, Repr

/-- Payload word `k` of a packet (R62). -/
def payloadWord (p : List Word) (k : Nat) : Word := p.getD k 0

/-- The operands of INIT: counter, `ceil(f1/4)` key words, `ceil(f2/4)` nonce words (R62, R64, R90). -/
def assembleInit (h : Word) (p : List Word) : Instr :=
  let klen := (f1Field h).toNat
  let nlen := (f2Field h).toNat
  .init klen nlen (payloadWord p 0) ((p.drop 1).take (ceilWords klen))
    ((p.drop (1 + ceilWords klen)).take (ceilWords nlen))

/-- The command of a header whose operation is known, from its fields and payload (R62, R64), or the reason it is
illegal (R69). -/
def assemble (o : Op) (h : Word) (p : List Word) : Except Illegal Instr :=
  if reservedFieldSet o h then .error .reservedField
  else match o with
    | .init => .ok (assembleInit h p)
    | .setw =>
      match sectionOf (f1Field h) with
      | some sec => .ok (.setw sec (f2Field h).toInt (payloadWord p 0))
      | none => .error .undefinedSection
    | .incr => .ok (.incr (payloadWord p 0))
    | .getctr => .ok .getctr
    | .getst =>
      match selectorOf (f1Field h) with
      | some sel => .ok (.getst sel)
      | none => .error .undefinedSelector
    | .ser =>
      match selectorOf (f1Field h) with
      | some sel => .ok (.ser sel)
      | none => .error .undefinedSelector
    | .compute => .ok .compute
    | .add32 => .ok (.add32 (payloadWord p 0) (payloadWord p 1))
    | .rotl32 => .ok (.rotl32 (payloadWord p 0) (f1Field h).toInt)
    | .xor32 => .ok (.xor32 (payloadWord p 0) (payloadWord p 1))
    | .qround => .ok (.qround (payloadWord p 0) (payloadWord p 1) (payloadWord p 2) (payloadWord p 3))

/-- A whole packet: header `h` and payload `p` (R71 steps 3 and 4). -/
def decodePacket (h : Word) (p : List Word) : Except Illegal Instr :=
  match opOf (opField h) with
  | some o => assemble o h p
  | none => .error .undefinedOpcode

/-- Reads one packet off the words, in the order of R71: the header, its `plen(H) - 1` payload words, then legality. -/
def decode (ws : List Word) : Decoded :=
  match ws with
  | [] => .incomplete
  | h :: tail =>
    if tail.length + 1 < plen h then .incomplete
    else match decodePacket h (tail.take (plen h - 1)) with
      | .ok i => .command i (tail.drop (plen h - 1))
      | .error why => .illegal why (tail.drop (plen h - 1))

/-- The decoder on a byte-wide transport (R46): total on any bytes. -/
def decodeBytes (bs : List Byte) : Decoded := decode (wholeWordsOfBytes bs)

/-! ### The encoder -/

/-- `H = op + 256 * f1 + 65536 * f2`, f3 = 0 (R61, and the Encoding line of every command's rule). -/
def header (o : Op) (f1 f2 : Nat) : Word := BitVec.ofNat 32 (o.code + 256 * f1 + 65536 * f2)

/-- The 8-bit two's-complement encoding of an index or amount, as an unsigned number (R64). -/
def signed8 (n : Int) : Nat := (BitVec.ofInt 8 n).toNat

/-- The packet of a command (R62, R68). -/
def encode : Instr → List Word
  | .init klen nlen ctr key nonce => header .init klen nlen :: ctr :: (key ++ nonce)
  | .setw sec idx v => [header .setw (sectionCode sec) (signed8 idx), v]
  | .incr delta => [header .incr 0 0, delta]
  | .getctr => [header .getctr 0 0]
  | .getst sel => [header .getst (selectorCode sel) 0]
  | .ser sel => [header .ser (selectorCode sel) 0]
  | .compute => [header .compute 0 0]
  | .add32 a b => [header .add32 0 0, a, b]
  | .rotl32 v n => [header .rotl32 (signed8 n) 0, v]
  | .xor32 a b => [header .xor32 0 0, a, b]
  | .qround a b c d => [header .qround 0 0, a, b, c, d]

/-! ### The opcode table's numbering of bits -/

/-- The words of the packet whose bits are `w`, bit 0 the least significant of the header and a later word's bits
counting on; bits from `nbits` up are zero, and the packet has as many words as its header says (R63). -/
def tableWords (nbits w : Nat) : List Word :=
  let v := w % 2 ^ nbits
  (List.range (plen (BitVec.ofNat 32 v))).map fun k => BitVec.ofNat 32 (v / 2 ^ (32 * k))

/-- The command the decoder reads from those words; none where it refuses them. -/
def decodeTableWord (nbits w : Nat) : Option Instr :=
  match decode (tableWords nbits w) with
  | .command i _ => some i
  | .illegal _ _ => none
  | .incomplete => none

end Sys2Proof
end

