-- ==== Sys2Proof/Config.lean ====
section
/-! DEFINITION. The parameters the spec fixes (00_scope.md R7) and the one free value it leaves open (10_state.md R28). -/

namespace Sys2Proof.Config

/-- The four constant words "expand 32-byte k", read little-endian (10_state.md R22). -/
def const0 : Word := 0x61707865
/-- Second constant word (R22). -/
def const1 : Word := 0x3320646E
/-- Third constant word (R22). -/
def const2 : Word := 0x79622D32
/-- Fourth constant word (R22). -/
def const3 : Word := 0x6B206574

/-- Words the key part of S holds: KEY_WORDS (R7). -/
def keyWords : Nat := 8
/-- Words the nonce part of S holds: three (R7, R42). -/
def nonceWords : Nat := 3
/-- DOUBLE_ROUNDS per block (R7, R124). -/
def doubleRounds : Nat := 10

/-- FREE VALUE: the `n`-th unspecified word ever drawn. The payload of a GETST or SER of an absent array is sixteen
unspecified words, not fixed across reads (R28, 93_implementation_defined.md U2). It has no body, so no proof can
know a value of it (DESIGN CHOICE, safe: log 7). -/
opaque freeWord : Nat → Word

end Sys2Proof.Config
end

