-- ==== Sys2Proof/Machine/State.lean ====
section
/-! DEFINITION. The state of the engine as plain data, its reset value, and the reasons a step can stop (10_state.md,
70_reset_and_hazards.md section 1). -/

namespace Sys2Proof.Machine

/-- The engine (10_state.md R20 to R35) with its two streams and its two inputs. There is no program counter, flag,
mode, cause register or memory to hold (R29, R30, R31, R40, R166). -/
structure State where
  /-- The Initial array: constants 0 to 3, key 4 to 11, counter 12, nonce 13 to 15 (R20, R21). -/
  S : Block
  /-- The Intermediate array, or absent (R27). -/
  W : Option Block
  /-- The Final array, or absent (R27). -/
  F : Option Block
  /-- The words received of a packet that is not complete yet (R32). -/
  held : List Word
  /-- The command stream: words the host has written and the engine has not received, oldest first (R41, R60). -/
  cmd : List Word
  /-- The response stream: words the engine has produced and the host has not taken, oldest first (R41, R60). -/
  rsp : List Word
  /-- Input: there is room for the next response (R197; 93_implementation_defined.md U10; log 4). -/
  room : Bool
  /-- Input: the reset event is asserted (R185; log 5). -/
  rst : Bool
  /-- The model's own: how many unspecified words have been drawn (R28, U2; log 7). -/
  draws : Nat
deriving DecidableEq, Repr

/-- The errors a response can carry (30_encoding.md R66). They are answers, not stops: see Machine/Ops.lean. -/
inductive ErrorCode where
  /-- SETW outside its section (R161). -/
  | indexError
  /-- ROTL32 outside [0, 32) (R162). -/
  | rangeError
  /-- INIT with a bad length (R163). -/
  | lengthError
  /-- INCR past 0xFFFFFFFF (R164). -/
  | counterOverflow
  /-- A header word that is no command (R165). -/
  | illegalCommand
deriving DecidableEq, Repr

/-- Why `step` takes no step. Neither is raised by a command. -/
inductive Fault where
  /-- Raised by `step` when the packet at the head of the command stream is incomplete and no further word has
  arrived: the engine waits, keeping its state (93_implementation_defined.md U10, treatment "stuck"). Safe: log 3. -/
  | awaitingPacket
  /-- Raised by `step` when there is no room for a response: the engine does not start the next command (U10, R197).
  Safe: log 3. -/
  | responseNotTaken
deriving DecidableEq, Repr

/-- Why a command has no meaning. No command of this model is refused. -/
inductive Refusal where
  /-- Raised by `exec` for a command without a meaning; no arm raises it. Safe. -/
  | notModelled (mnemonic : String)
deriving DecidableEq, Repr

/-- The outcome of a step or of a command. -/
abbrev Result := Host.Outcome State Fault Refusal

/-- S after reset: the default-constructed Initial state (R35, R185). -/
def resetBlock : Block :=
  #v[Config.const0, Config.const1, Config.const2, Config.const3, 0, 0, 0, 0, 0, 0, 0, 0, 0, 0, 0, 0]

/-- The engine right after reset (R35, R185): the default-constructed state, W and F absent, no partial packet, no
response waiting. `cmd`, `room`, `rst` and `draws` are the host's and the model's own: DESIGN CHOICE, log 6. -/
def State.reset : State where
  S := resetBlock
  W := none
  F := none
  held := []
  cmd := []
  rsp := []
  room := true
  rst := false
  draws := 0

end Sys2Proof.Machine
end

