-- ==== Sys2Proof/Machine/Flags.lean ====
section
/-! DEFINITION. The engine has no flags (10_state.md R30). What stands in their place: the status word of a response
(30_encoding.md R65, R66) and the conditions that decide an error (R90, R92, R94, R103). -/

namespace Sys2Proof.Machine

/-- The number of an error (R66). -/
def ErrorCode.code : ErrorCode → Nat
  | .indexError => 1
  | .rangeError => 2
  | .lengthError => 3
  | .counterOverflow => 4
  | .illegalCommand => 5

/-- The error a status number names, if any (R66). -/
def ErrorCode.ofCode : Nat → Option ErrorCode
  | 1 => some .indexError
  | 2 => some .rangeError
  | 3 => some .lengthError
  | 4 => some .counterOverflow
  | 5 => some .illegalCommand
  | _ => none

/-- The status word: status in bits 7:0, count in bits 15:8, bits 31:16 zero (R65). -/
def statusWord (status count : Nat) : Word := BitVec.ofNat 32 (status + 256 * count)

/-- The status field of a status word (R65). -/
def statusField (t : Word) : Nat := (t.extractLsb' 0 8).toNat

/-- The count field of a status word: how many payload words follow (R65, R71). -/
def countField (t : Word) : Nat := (t.extractLsb' 8 8).toNat

/-- INCR overflows: the sum on unbounded integers exceeds 0xFFFFFFFF (R94). -/
def counterOverflows (ctr delta : Word) : Bool := decide (0xFFFFFFFF < ctr.toNat + delta.toNat)

/-- A byte length INIT accepts for a part of `capacity` words: a multiple of 4, not above the capacity (R90, R91). -/
def lengthOk (bytes capacity : Nat) : Bool := decide (bytes % 4 = 0) && decide (bytes / 4 ≤ capacity)

/-- An integer in [0, bound): the range check of SETW and of ROTL32 (R92, R103). -/
def inRange (n : Int) (bound : Nat) : Bool := decide (0 ≤ n) && decide (n < bound)

end Sys2Proof.Machine
end

