-- ==== Sys2Proof/Machine/Ops.lean ====
section
/-! DEFINITION. The shared operations: writing S, answering, raising an error (60_exceptions.md R166), taking words from
the command stream, the reset event (70_reset_and_hazards.md R185, R187), and what the host does to the streams. -/

namespace Sys2Proof.Machine

/-! ### The array S -/

/-- `S[i] <- v` (00_scope.md R10), for an index below 16. -/
def State.writeS (s : State) (i : Nat) (v : Word) : State := { s with S := s.S.setIfInBounds i v }

/-- The block counter, `S[12]` (R25). -/
def State.counter (s : State) : Word := s.S[12]

/-- A new S with W and F absent: the writes of INIT (R90). -/
def State.construct (s : State) (b : Block) : State := { s with S := b, W := none, F := none }

/-- Publishes W and F together: the writes of COMPUTE (R126). -/
def State.publish (s : State) (w f : Block) : State := { s with W := some w, F := some f }

/-! ### Answering -/

/-- One response packet on the response stream, after those already there (R50, R60). -/
def State.emit (s : State) (packet : List Word) : State := { s with rsp := s.rsp ++ packet }

/-- The OK response with this payload (R65, R67). -/
def State.answered (s : State) (payload : List Word) : State :=
  s.emit (statusWord 0 payload.length :: payload)

/-- The error response: the single status word with the error's code, count 0 (R65, R166). -/
def State.failed (s : State) (e : ErrorCode) : State := s.emit [statusWord e.code 0]

/-- `respond(w0, w1, ...)` (R10): the command ends with status OK. -/
def respond (payload : List Word) (s : State) : Result := .next (s.answered payload)

/-- `raise <Error>` (R10), the one way an error is taken (R166): the command ends at once, no word of S, W or F and no
presence mark changes, the response is the error's code, and the packet has already been consumed. Nothing is saved and
control goes nowhere; there is nothing to return from, the next command is taken as after an OK response (R169). -/
def raise (e : ErrorCode) (s : State) : Result := .next (s.failed e)

/-! ### The command stream -/

/-- The words of the current packet received so far, then those waiting on the stream. -/
def State.arrived (s : State) : List Word := s.held ++ s.cmd

/-- The packet at the head has been taken whole; `rest` is what follows it (R63, R166). -/
def State.consume (s : State) (rest : List Word) : State := { s with held := [], cmd := rest }

/-- The words waiting on the stream are received into a packet that is still incomplete (R32). -/
def State.hold (s : State) : State := { s with held := s.held ++ s.cmd, cmd := [] }

/-! ### Reset -/

/-- The reset event (R185, R187): S, W and F take their reset values, a partly received packet is forgotten, waiting
response words are dropped. Words the engine has not received stay on the command stream, and the next of them is taken
as a header (DEDUCED: log 5). -/
def State.takeReset (s : State) : State :=
  { State.reset with cmd := s.cmd, room := s.room, draws := s.draws }

/-! ### The host's side of the interface -/

/-- The host writes words on the command stream (R60). -/
def State.hostSend (s : State) (ws : List Word) : State := { s with cmd := s.cmd ++ ws }

/-- The host takes the oldest `n` words of the response stream (R60). -/
def State.hostTake (s : State) (n : Nat) : State := { s with rsp := s.rsp.drop n }

/-- The host asserts reset (R185); the next step takes it. -/
def State.hostReset (s : State) : State := { s with rst := true }

/-- Whether the response stream has room for the next response (R197, U10). -/
def State.hostRoom (s : State) (b : Bool) : State := { s with room := b }

end Sys2Proof.Machine
end

