-- ==== Sys2Proof/Machine/Operands.lean ====
section
/-! DEFINITION. The operand forms: a word of a section (20_memory.md R42), a whole array by selector
(44_readout.md R135), the key and nonce words of INIT (40_state_engine.md R90), and the array as bytes (R45). -/

namespace Sys2Proof.Machine

/-- The absolute index of a section's first word (R42). -/
def sectionBase : Section → Nat
  | .const => 0
  | .key => 4
  | .nonce => 13

/-- The number of words of a section (R42). -/
def sectionLength : Section → Nat
  | .const => 4
  | .key => 8
  | .nonce => 3

/-- Word `j` of a section that `bytes` bytes are loaded into: the supplied word, or zero where the input does not reach
(R90, R91). -/
def suppliedWord (ws : List Word) (bytes j : Nat) : Word := if j < bytes / 4 then ws.getD j 0 else 0

/-- The S that INIT makes: constants, key, counter, nonce (R90). -/
def constructedBlock (klen nlen : Nat) (ctr : Word) (key nonce : List Word) : Block :=
  #v[Config.const0, Config.const1, Config.const2, Config.const3,
    suppliedWord key klen 0, suppliedWord key klen 1, suppliedWord key klen 2, suppliedWord key klen 3,
    suppliedWord key klen 4, suppliedWord key klen 5, suppliedWord key klen 6, suppliedWord key klen 7,
    ctr,
    suppliedWord nonce nlen 0, suppliedWord nonce nlen 1, suppliedWord nonce nlen 2]

/-- Sixteen words that nothing constrains, from draw `n` on (R28, U2; log 7). -/
def unspecifiedBlock (n : Nat) : Block := Vector.ofFn fun i : Fin 16 => Config.freeWord (n + i.val)

/-- The array a selector names, or none while it is absent (R27, R135). S is never absent. -/
def State.selected (s : State) : Selector → Option Block
  | .initial => some s.S
  | .intermediate => s.W
  | .final => s.F

/-- Reading a whole array (R135): its words, or sixteen unspecified words where it is absent, which no later read sees
again (R28). -/
def readArray (sel : Selector) (s : State) : Block × State :=
  match s.selected sel with
  | some b => (b, s)
  | none => (unspecifiedBlock s.draws, { s with draws := s.draws + 16 })

/-- The 64 bytes of an array, `B[4i .. 4i+3] = le_bytes(X[i])` (R45, R136). -/
def serialize (b : Block) : List Byte := bytesOfWords b.toList

end Sys2Proof.Machine
end

