-- ==== Sys2Proof/Machine/Arx.lean ====
section
/-! DEFINITION. The sub-block 32bit_rotator_adder_xor (41_arx_unit.md): the three functions and ADD32, ROTL32, XOR32. -/

namespace Sys2Proof.Machine

/-- `add32(a, b) = (a + b) mod 2^32`; wraps silently (R100). -/
def add32 (a b : Word) : Word := a + b

/-- `rotl32(v, n)` for `n < 32`, by the arithmetic of R102. -/
def rotl32 (v : Word) (n : Nat) : Word :=
  BitVec.ofNat 32 ((v.toNat * 2 ^ n) % 2 ^ 32 + v.toNat / 2 ^ (32 - n))

/-- `xor32(a, b)`, bitwise (R104). -/
def xor32 (a b : Word) : Word := a ^^^ b

/-- ADD32 (R101). -/
def execAdd32 (a b : Word) (s : State) : Result := respond [add32 a b] s

/-- ROTL32 (R103): RangeError outside [0, 32). -/
def execRotl32 (v : Word) (n : Int) (s : State) : Result :=
  if inRange n 32 then respond [rotl32 v n.toNat] s else raise .rangeError s

/-- XOR32 (R105). -/
def execXor32 (a b : Word) (s : State) : Result := respond [xor32 a b] s

end Sys2Proof.Machine
end

