-- ==== Sys2Proof/Machine/QuarterRound.lean ====
section
/-! DEFINITION. The sub-block quarter_round_unit (42_quarter_round.md): the function qr and QROUND. -/

namespace Sys2Proof.Machine

/-- Four words, in the order a, b, c, d. -/
structure Quad where
  a : Word
  b : Word
  c : Word
  d : Word
deriving DecidableEq, Repr

/-- `qr(a, b, c, d)`: the twelve steps of R110, each on the values left by the steps before it. -/
def qr (q : Quad) : Quad :=
  let a := add32 q.a q.b
  let d := xor32 q.d a
  let d := rotl32 d 16
  let c := add32 q.c d
  let b := xor32 q.b c
  let b := rotl32 b 12
  let a := add32 a b
  let d := xor32 d a
  let d := rotl32 d 8
  let c := add32 c d
  let b := xor32 b c
  let b := rotl32 b 7
  ⟨a, b, c, d⟩

/-- QROUND by value (R111); it touches no state. -/
def execQround (a b c d : Word) (s : State) : Result :=
  let q := qr ⟨a, b, c, d⟩
  respond [q.a, q.b, q.c, q.d] s

end Sys2Proof.Machine
end

