-- ==== Sys2Proof/Machine/BlockGenerator.lean ====
section
/-! DEFINITION. The sub-blocks chacha20_round_function and keystream_block_generator (43_block_generator.md): the rounds
and COMPUTE. -/

namespace Sys2Proof.Machine

/-- `QR(X; i, j, k, l)` for four distinct indices (R112, R120): qr on those words, in that order, the rest unchanged.
It is used with the eight index sets of R121 and R122 only (U7; log 14). -/
def qrAt (x : Block) (i j k l : Fin 16) : Block :=
  let q := qr ⟨x[i], x[j], x[k], x[l]⟩
  (((x.set i q.a).set j q.b).set k q.c).set l q.d

/-- The column round (R121). -/
def columnRound (x : Block) : Block :=
  qrAt (qrAt (qrAt (qrAt x 0 4 8 12) 1 5 9 13) 2 6 10 14) 3 7 11 15

/-- The diagonal round (R122). -/
def diagonalRound (x : Block) : Block :=
  qrAt (qrAt (qrAt (qrAt x 0 5 10 15) 1 6 11 12) 2 7 8 13) 3 4 9 14

/-- The double-round: the column round, then the diagonal round (R123). -/
def doubleRound (x : Block) : Block := diagonalRound (columnRound x)

/-- `n` double-rounds in succession (R124). -/
def doubleRounds : Nat → Block → Block
  | 0, x => x
  | n + 1, x => doubleRounds n (doubleRound x)

/-- The permutation: ten double-rounds, eighty quarter-rounds (R124; 90_conflicts.md C1). Irreducible, so that
unification never tries to run it; `rw [rounds]` opens it. -/
@[irreducible] def rounds (x : Block) : Block := doubleRounds Config.doubleRounds x

/-- The word-wise modular sum of two arrays (R126). -/
def addBlocks (x y : Block) : Block := Vector.ofFn fun i : Fin 16 => add32 x[i] y[i]

/-- COMPUTE (R126): W is the permuted copy of S, F the word-wise sum of S and W; S keeps its value. -/
def execCompute (s : State) : Result :=
  let w := rounds s.S
  respond [] (s.publish w (addBlocks s.S w))

end Sys2Proof.Machine
end

