-- ==== Sys2Proof/Machine/Readout.lean ====
section
/-! DEFINITION. The read-out commands GETST and SER (44_readout.md). -/

namespace Sys2Proof.Machine

/-- GETST (R135): the sixteen words of the selected array, index 0 first. -/
def execGetst (sel : Selector) (s : State) : Result :=
  let r := readArray sel s
  respond r.1.toList r.2

/-- SER (R136): the 64 little-endian bytes of the selected array, packed four to a word. -/
def execSer (sel : Selector) (s : State) : Result :=
  let r := readArray sel s
  respond (wordsOfBytes (serialize r.1)) r.2

end Sys2Proof.Machine
end

