-- ==== Sys2Proof/Machine/StateEngine.lean ====
section
/-! DEFINITION. The sub-block chacha20_state_engine (40_state_engine.md): INIT, SETW, INCR, GETCTR. -/

namespace Sys2Proof.Machine

/-- INIT (R90, R91): both lengths are checked before anything is written; W and F become absent. -/
def execInit (klen nlen : Nat) (ctr : Word) (key nonce : List Word) (s : State) : Result :=
  if lengthOk klen Config.keyWords && lengthOk nlen Config.nonceWords then
    respond [] (s.construct (constructedBlock klen nlen ctr key nonce))
  else raise .lengthError s

/-- SETW (R92): IndexError outside the section; W and F stay as they are (R33). -/
def execSetw (sec : Section) (idx : Int) (v : Word) (s : State) : Result :=
  if inRange idx (sectionLength sec) then respond [] (s.writeS (sectionBase sec + idx.toNat) v)
  else raise .indexError s

/-- INCR (R94): CounterOverflow instead of a wrap; W and F stay as they are (R33). -/
def execIncr (delta : Word) (s : State) : Result :=
  if counterOverflows s.counter delta then raise .counterOverflow s
  else respond [] (s.writeS 12 (add32 s.counter delta))

/-- GETCTR (R96). -/
def execGetctr (s : State) : Result := respond [s.counter] s

end Sys2Proof.Machine
end

