-- ==== Sys2Proof/Machine/Dispatch.lean ====
section
/-! DEFINITION. One arm per command, each one direct call of the command's meaning. -/

namespace Sys2Proof.Machine

def exec (i : Instr) (s : State) : Host.Outcome State Fault Refusal :=
  match i with
  | .init klen nlen ctr key nonce => Sys2Proof.Machine.execInit klen nlen ctr key nonce s
  | .setw sec idx v => Sys2Proof.Machine.execSetw sec idx v s
  | .incr delta => Sys2Proof.Machine.execIncr delta s
  | .getctr => Sys2Proof.Machine.execGetctr s
  | .getst sel => Sys2Proof.Machine.execGetst sel s
  | .ser sel => Sys2Proof.Machine.execSer sel s
  | .compute => Sys2Proof.Machine.execCompute s
  | .add32 a b => Sys2Proof.Machine.execAdd32 a b s
  | .rotl32 v n => Sys2Proof.Machine.execRotl32 v n s
  | .xor32 a b => Sys2Proof.Machine.execXor32 a b s
  | .qround a b c d => Sys2Proof.Machine.execQround a b c d s

end Sys2Proof.Machine
end

