-- ==== Sys2Proof/Machine/Fetch.lean ====
section
/-! DEFINITION. What the engine does around a command: the reset event, waiting, receiving the words of a packet, and
answering an illegal header (30_encoding.md R69, R71; 70_reset_and_hazards.md R185, R187). -/

namespace Sys2Proof.Machine

/-- What is at the engine's input. -/
inductive Fetched where
  /-- A whole legal packet: its command, and the state with the packet consumed. -/
  | command (i : Instr) (s : State)
  /-- The step is complete without a command: reset taken, words received, or an illegal header answered. -/
  | done (s : State)
  /-- No step is enabled (93_implementation_defined.md U10). -/
  | stuck (f : Fault)
deriving DecidableEq, Repr

/-- The words at the head of the command stream (R71): a whole legal packet is consumed and handed on; a whole illegal
one is consumed and answered with IllegalCommand, changing nothing else (R69); of an incomplete one the words that have
arrived are received (R32), and with no new word the engine waits (U10). -/
def receive (s : State) : Fetched :=
  match decode s.arrived with
  | .command i rest => .command i (s.consume rest)
  | .illegal _ rest => .done ((s.consume rest).failed .illegalCommand)
  | .incomplete =>
    match s.cmd with
    | [] => .stuck .awaitingPacket
    | _ :: _ => .done s.hold

/-- Reset comes before everything (R185, R187); then the engine needs room for a response (R197, U10). -/
def fetch (s : State) : Fetched :=
  if s.rst then .done s.takeReset
  else if s.room then receive s
  else .stuck .responseNotTaken

end Sys2Proof.Machine
end

