-- ==== Sys2Proof/Machine/Step.lean ====
section
/-! DEFINITION. One step of the engine: one whole packet performed and answered (00_scope.md R13), or what Fetch.lean
does without a command. -/

namespace Sys2Proof.Machine

/-- One step (R13, R71). -/
def step (s : State) : Host.Outcome State Fault Refusal :=
  match fetch s with
  | .command i t => exec i t
  | .done t => .next t
  | .stuck f => .fault f

/-- `s` with the packet whose bits are `w` at the head of the command stream, where the next step takes it: no reset
asserted, room for the response, no partial packet before it (log 1). -/
def State.withFetchWord (s : State) (nbits w : Nat) : State :=
  { s with rst := false, room := true, held := [], cmd := tableWords nbits w ++ s.cmd }

end Sys2Proof.Machine
end

