-- ==== Sys2Proof/Machine/HostSequences.lean ====
section
/-! DEFINITION. The host's side (45_host_sequences.md): pseudo-instructions (30_encoding.md R73), the document's Cipher
and Random, as sequences of packets sent through `step`. Outside the hardware block (00_scope.md R5): nothing here
changes what the engine does. -/

namespace Sys2Proof.Machine

/-! ### One command and its response -/

/-- Why a host sequence stops. -/
inductive HostError where
  /-- A document error, reported by the engine or raised by the host itself (R161 to R164). -/
  | raised (e : ErrorCode)
  /-- The host cannot drive this engine: its interface is in use or it gave no response (R54, R196; U6). Safe: log 10. -/
  | noAnswer
deriving DecidableEq, Repr

/-- The payload of a response, or the error it reports (R65, R66). Words that are no response of this engine are given
no meaning (93_implementation_defined.md U6). -/
def readResponse : List Word → Except HostError (List Word)
  | [] => .error .noAnswer
  | t :: payload =>
    match statusField t, ErrorCode.ofCode (statusField t) with
    | 0, _ => .ok (payload.take (countField t))
    | _, some e => .error (.raised e)
    | _, none => .error .noAnswer

/-- The engine waits for a header word: no packet begun, nothing on either stream, room for a response, no reset. -/
def State.idle (s : State) : Bool :=
  s.held.isEmpty && s.cmd.isEmpty && s.rsp.isEmpty && s.room && !s.rst

/-- The host sends one command and takes its whole response (45_host_sequences.md, opening paragraph). One host sequence
at a time: an engine that is not idle is being driven by another (R54). -/
def transact (i : Instr) (e : State) : Except HostError (List Word) × State :=
  if e.idle then
    match step (e.hostSend (encode i)) with
    | .next t => (readResponse t.rsp, t.hostTake t.rsp.length)
    | .fault _ => (.error .noAnswer, e)
    | .refused _ => (.error .noAnswer, e)
  else (.error .noAnswer, e)

/-! ### Pseudo-instructions -/

/-- INIT from byte strings; an absent one is empty and an absent counter is 0 (R73, R90). -/
def initOfBytes (key nonce : Option (List Byte)) (ctr : Option Word) : Instr :=
  .init (key.getD []).length (nonce.getD []).length (ctr.getD 0) (wordsOfBytes (key.getD []))
    (wordsOfBytes (nonce.getD []))

/-- INCR; an absent operand is 1 (R73). -/
def incrDefault (delta : Option Word) : Instr := .incr (delta.getD 1)

/-- COMPUTE, then SER final: the 64 keystream bytes of the engine's S (R141, R144). -/
def keystreamBlock (e : State) : Except HostError (List Byte) × State :=
  match transact .compute e with
  | (.error x, t) => (.error x, t)
  | (.ok _, t) =>
    match transact (.ser .final) t with
    | (.error x, u) => (.error x, u)
    | (.ok ws, u) => (.ok (bytesOfWords ws), u)

/-- COMPUTE, then GETST final: the sixteen words of the new block (R151, R152). -/
def finalWords (e : State) : Except HostError (List Word) × State :=
  match transact .compute e with
  | (.error x, t) => (.error x, t)
  | (.ok _, t) => transact (.getst .final) t

/-- NEXTBLOCK: `INCR 1 ; COMPUTE ; SER final`, stopping at the first response that is not OK (R73). -/
def nextBlock (e : State) : Except HostError (List Byte) × State :=
  match transact (incrDefault none) e with
  | (.error x, t) => (.error x, t)
  | (.ok _, t) => keystreamBlock t

/-- Loads key, nonce and counter (R141, R151). A byte string too long for the INIT header has more bytes than its
section holds: LengthError, and no command is sent (DEDUCED: log 10). -/
def construct (key nonce : List Byte) (ctr : Word) (e : State) : Except HostError (List Word) × State :=
  if key.length < 256 ∧ nonce.length < 256 then transact (initOfBytes (some key) (some nonce) (some ctr)) e
  else (.error (.raised .lengthError), e)

/-! ### Cipher -/

/-- The Cipher: the engine it owns, its cursor in [0, 64], the cached keystream bytes (R140). -/
structure Cipher where
  engine : State
  sub : Nat
  ks : List Byte
deriving DecidableEq, Repr

/-- CIPHER.NEW (R141): the cursor check comes first and sends nothing. With a failed constructor there is no Cipher
(U8); the engine is handed back. -/
def cipherNew (key nonce : List Byte) (ctr : Word) (sub : Int) (e : State) : Except HostError Cipher × State :=
  if inRange sub 64 then
    match construct key nonce ctr e with
    | (.error x, t) => (.error x, t)
    | (.ok _, t) =>
      match keystreamBlock t with
      | (.error x, u) => (.error x, u)
      | (.ok ks, u) => (.ok ⟨u, sub.toNat, ks⟩, u)
  else (.error (.raised .indexError), e)

/-- CIPHER.SETSUB (R142): no command is sent and the cached block stays. -/
def Cipher.setSub (c : Cipher) (i : Int) : Except HostError Cipher :=
  if inRange i 64 then .ok { c with sub := i.toNat } else .error (.raised .indexError)

/-- CIPHER.GETSUB (R143). -/
def Cipher.getSub (c : Cipher) : Nat := c.sub

/-- The block-boundary step (R144): the cursor is 0 already when INCR can fail, and after a failure the old block is
still cached (R194). -/
def Cipher.boundary (c : Cipher) : Option HostError × Cipher :=
  match transact (incrDefault none) c.engine with
  | (.error x, t) => (some x, { c with engine := t, sub := 0 })
  | (.ok _, t) =>
    match keystreamBlock t with
    | (.error x, u) => (some x, { c with engine := u, sub := 0 })
    | (.ok ks, u) => (none, ⟨u, 0, ks⟩)

/-- What a transform leaves: the bytes produced, the error that aborted it if any, and the Cipher. Whether a caller sees
the bytes after an error is not said (R146, N18; log 10). -/
structure Transformed where
  output : List Byte
  failed : Option HostError
  cipher : Cipher
deriving DecidableEq, Repr

/-- One byte at the cursor (R145). -/
def Cipher.mask (c : Cipher) (x : Byte) : Byte := x ^^^ c.ks.getD c.sub 0

/-- The boundary step where the cursor asks for it (R145). -/
def Cipher.refill (c : Cipher) : Option HostError × Cipher := if c.sub = 64 then c.boundary else (none, c)

/-- CIPHER.TRANSFORM (R145): byte by byte, refilling only when a byte of the next block is needed. -/
def Cipher.transform (c : Cipher) : List Byte → Transformed
  | [] => ⟨[], none, c⟩
  | x :: xs =>
    match c.refill with
    | (some err, d) => ⟨[], some err, d⟩
    | (none, d) =>
      let r := Cipher.transform { d with sub := d.sub + 1 } xs
      { r with output := d.mask x :: r.output }

/-! ### Random -/

/-- The Random generator: the engine it owns, its cursor in [0, 16), the cached Final words (R150). -/
structure RandomSeq where
  engine : State
  widx : Nat
  fw : List Word
deriving DecidableEq, Repr

/-- The bytes the entropy source supplies when key or nonce is null: free inputs of the sequence (R151, U9). -/
structure Entropy where
  key : Vector Byte 32
  nonce : Vector Byte 12
deriving DecidableEq, Repr

/-- RANDOM.NEW (R151): a null key or nonce is drawn from the entropy source, not zero. -/
def randomNew (key nonce : Option (List Byte)) (ctr : Word) (sub : Int) (ent : Entropy) (e : State) :
    Except HostError RandomSeq × State :=
  if inRange sub 16 then
    match construct (key.getD ent.key.toList) (nonce.getD ent.nonce.toList) ctr e with
    | (.error x, t) => (.error x, t)
    | (.ok _, t) =>
      match finalWords t with
      | (.error x, u) => (.error x, u)
      | (.ok ws, u) => (.ok ⟨u, sub.toNat, ws⟩, u)
  else (.error (.raised .indexError), e)

/-- RANDOM.RAND (R152): the word is taken first; the refill after the sixteenth may fail, and then no word is returned
and the cursor is 0. -/
def RandomSeq.rand (r : RandomSeq) : Except HostError Word × RandomSeq :=
  let v := r.fw.getD r.widx 0
  if r.widx + 1 = 16 then
    match transact (incrDefault none) r.engine with
    | (.error x, t) => (.error x, { r with engine := t, widx := 0 })
    | (.ok _, t) =>
      match finalWords t with
      | (.error x, u) => (.error x, { r with engine := u, widx := 0 })
      | (.ok ws, u) => (.ok v, ⟨u, 0, ws⟩)
  else (.ok v, { r with widx := r.widx + 1 })

/-- RANDOM.GETCTR (R153): the GETCTR command. -/
def RandomSeq.getCtr (r : RandomSeq) : Except HostError (List Word) × RandomSeq :=
  ((transact .getctr r.engine).1, { r with engine := (transact .getctr r.engine).2 })

/-- RANDOM.GETSUB (R153). -/
def RandomSeq.getSub (r : RandomSeq) : Nat := r.widx

end Sys2Proof.Machine
end

