-- ==== Sys2Proof/Safety.lean ====
section
/-! DEFINITION. What a safe run is: the invariants the engine keeps, and the obligations the spec lays on the host
(70_reset_and_hazards.md sections 2 and 3). -/

namespace Sys2Proof.Machine

/-! ### Invariants of the engine -/

/-- The pair (w, f) is the block of the state `b`: w the permuted words, f the word-wise sum (R33, R126). -/
def IsBlockOf (b w f : Block) : Prop := w = rounds b ∧ ∀ i : Fin 16, f[i] = add32 b[i] w[i]

/-- W and F are absent together, or present together and the block of some state (R27, R33). -/
def State.BlocksConsistent (s : State) : Prop :=
  (s.W = none ∧ s.F = none) ∨ ∃ b w f, s.W = some w ∧ s.F = some f ∧ IsBlockOf b w f

/-- The words held are a proper part of one packet (R32, R71). -/
def State.HeldPartial (s : State) : Prop := ∀ h t, s.held = h :: t → s.held.length < plen h

/-- What every step keeps. -/
structure State.Inv (s : State) : Prop where
  blocks : s.BlocksConsistent
  held : s.HeldPartial

/-- F is the block of the current S: no SETW, INCR or INIT since the last COMPUTE (R33, R191). -/
def State.Fresh (s : State) : Prop := ∃ w f, s.W = some w ∧ s.F = some f ∧ IsBlockOf s.S w f

/-! ### The packets and responses of the streams -/

/-- A list of words that is one whole command packet: as long as its header says (R63). -/
def IsPacket : List Word → Prop
  | [] => False
  | h :: t => t.length + 1 = plen h

/-- A list of words that is one response packet of the engine: a status word whose reserved bits are zero, whose status
is 0 to 5, whose count is the length of the payload, 0, 1, 4 or 16, and 0 when the status is not 0 (R65, R66, U6). -/
def IsResponse : List Word → Prop
  | [] => False
  | t :: payload =>
    t.toNat < 65536 ∧ statusField t ≤ 5 ∧ countField t = payload.length ∧
      (payload.length = 0 ∨ payload.length = 1 ∨ payload.length = 4 ∨ payload.length = 16) ∧
      (statusField t ≠ 0 → payload = [])

/-! ### Obligations of the host -/

/-- The read is of an array that is present (R190). -/
def ReadsPresent (i : Instr) (s : State) : Prop :=
  match i with
  | .getst sel => s.selected sel ≠ none
  | .ser sel => s.selected sel ≠ none
  | .init _ _ _ _ _ | .setw _ _ _ | .incr _ | .getctr | .compute | .add32 _ _ | .rotl32 _ _ | .xor32 _ _
  | .qround _ _ _ _ => True

/-- Key and nonce are given in full (R193). -/
def ExactLengths : Instr → Prop
  | .init klen nlen _ _ _ => klen = 32 ∧ nlen = 12
  | .setw _ _ _ | .incr _ | .getctr | .getst _ | .ser _ | .compute | .add32 _ _ | .rotl32 _ _ | .xor32 _ _
  | .qround _ _ _ _ => True

/-- The constants are not overwritten (R195). -/
def LeavesConstants : Instr → Prop
  | .setw sec _ _ => sec ≠ .const
  | .init _ _ _ _ _ | .incr _ | .getctr | .getst _ | .ser _ | .compute | .add32 _ _ | .rotl32 _ _ | .xor32 _ _
  | .qround _ _ _ _ => True

/-- Words 0 to 3 are the constants of ChaCha20 (R22, R23). -/
def State.ConstantsIntact (s : State) : Prop :=
  s.S[0] = Config.const0 ∧ s.S[1] = Config.const1 ∧ s.S[2] = Config.const2 ∧ s.S[3] = Config.const3

/-- A command the spec lets a careful host send (R190, R193, R195). -/
def SafeCommand (i : Instr) (s : State) : Prop := ReadsPresent i s ∧ ExactLengths i ∧ LeavesConstants i

/-- No reset is asserted and there is room for a response: a whole packet at the head is performed (R197). -/
def State.Ready (s : State) : Prop := s.rst = false ∧ s.room = true

end Sys2Proof.Machine
end

