-- ==== Sys2Proof/Certificates/Slice0/Obligations.lean ====
section
/-! DEFINITION. The statements for the provers, from the numbered rules of spec/. -/

namespace Sys2Proof.Spec

open Sys2Proof.Machine

/-- `exec i s` answers a next state: `t` with this response packet after the words already on the response stream. -/
def Answers (i : Instr) (s t : State) (packet : List Word) : Prop :=
  exec i s = .next { t with rsp := s.rsp ++ packet }

/-- Wherever this packet stands at the head of the command stream of an engine that may step, the step performs `i` on
the state with exactly the packet consumed. -/
def RunsAs (packet : List Word) (i : Instr) : Prop :=
  ∀ (s : State) (rest : List Word), s.Ready → s.held ++ s.cmd = packet ++ rest →
    step s = exec i { s with held := [], cmd := rest }

/-- Wherever a packet with this header stands whole at the head of the command stream, the step consumes it, answers
0x00000005 and changes nothing else. -/
def AnswersIllegal (h : Word) : Prop :=
  ∀ (s : State) (p rest : List Word), s.Ready → s.held ++ s.cmd = h :: (p ++ rest) → p.length + 1 = plen h →
    step s = .next { s with held := [], cmd := rest, rsp := s.rsp ++ [0x00000005] }

/-- 30_encoding.md R69, on the numbers of the four fields. -/
def IllegalHeader (h : Word) : Prop :=
  let op := h.toNat % 256
  let f1 := h.toNat / 256 % 256
  let f2 := h.toNat / 65536 % 256
  let f3 := h.toNat / 16777216
  op ∉ [1, 2, 3, 4, 5, 6, 7, 0x10, 0x11, 0x12, 0x13] ∨
  f3 ≠ 0 ∨
  (op ∈ [5, 6, 0x11] ∧ f2 ≠ 0) ∨
  (op ∈ [3, 4, 7, 0x10, 0x12, 0x13] ∧ (f1 ≠ 0 ∨ f2 ≠ 0)) ∨
  (op = 2 ∧ 3 ≤ f1) ∨
  (op ∈ [5, 6] ∧ 3 ≤ f1)

/-- Base and length of a section: the case expression of 40_state_engine.md R92. -/
def sectionRange : Section → Nat × Nat
  | .const => (0, 4)
  | .key => (4, 8)
  | .nonce => (13, 3)

/-- Performing packets one at a time, each alone on the command stream: `rs` are the responses, in order. -/
def Performs (s : State) : List (List Word) → List (List Word) → State → Prop
  | [], [], t => t = s
  | p :: ps, r :: rs, t =>
    ∃ u : State, step { s with cmd := p } = .next u ∧ u.cmd = [] ∧ u.rsp = s.rsp ++ r ∧ IsResponse r ∧
      Performs u ps rs t
  | [], _ :: _, _ => False
  | _ :: _, [], _ => False

/-- The status numbers a command can answer with: the rows of 60_exceptions.md R168 but for IllegalCommand, which the
decoder answers. -/
def possibleStatus : Instr → List Nat
  | .init _ _ _ _ _ => [0, 3]
  | .setw _ _ _ => [0, 1]
  | .incr _ => [0, 4]
  | .rotl32 _ _ => [0, 2]
  | .getctr | .getst _ | .ser _ | .compute | .add32 _ _ | .xor32 _ _ | .qround _ _ _ _ => [0]

/-- Neither INIT nor SETW nor INCR: a command that writes no word of S. -/
def WritesNoS : Instr → Prop
  | .init _ _ _ _ _ | .setw _ _ _ | .incr _ => False
  | .getctr | .getst _ | .ser _ | .compute | .add32 _ _ | .rotl32 _ _ | .xor32 _ _ | .qround _ _ _ _ => True

/-- Neither INIT nor COMPUTE: a command that leaves W and F as they are. -/
def LeavesBlocks : Instr → Prop
  | .init _ _ _ _ _ | .compute => False
  | .setw _ _ _ | .incr _ | .getctr | .getst _ | .ser _ | .add32 _ _ | .rotl32 _ _ | .xor32 _ _
  | .qround _ _ _ _ => True

end Sys2Proof.Spec

open Sys2Proof Sys2Proof.Machine Sys2Proof.Spec

/-! ### Encoding -/

/-- Every well-formed command, with every operand it can carry, is read back from its packet, whatever follows
(R61 to R64, R68, R71). -/
def Obligations.DecodeOfEncode : Prop :=
  ∀ (i : Instr) (rest : List Word), WellFormed i = true → decode (encode i ++ rest) = .command i rest

/-- Whatever the decoder reads is well-formed, and the words it read are that command's packet: no packet has two
readings and no bit of a legal packet is ignored (R61 to R64, R69, R70). -/
def Obligations.EncodeOfDecode : Prop :=
  ∀ (ws : List Word) (i : Instr) (rest : List Word), decode ws = .command i rest →
    WellFormed i = true ∧ ws = encode i ++ rest

/-- R69: the illegal header words, how they are answered, and that every other header word is a command (R70). -/
def Obligations.IllegalHeadersAnswered : Prop :=
  (∀ h : Word, IllegalHeader h → AnswersIllegal h) ∧
  (∀ (h : Word) (p : List Word), ¬ IllegalHeader h → ∃ i, decodePacket h p = .ok i) ∧
  (IllegalHeader 0x00000000 ∧ plen 0x00000000 = 1) ∧ (IllegalHeader 0xFFFFFFFF ∧ plen 0xFFFFFFFF = 1)

/-- R68: a header is a command exactly when a row of the opcode table selects it, the row names its operation, and no
header is selected by two rows. -/
def Obligations.OpcodeTableExactAndDisjoint : Prop :=
  (∀ (h : Word) (p : List Word),
    (∃ i, decodePacket h p = .ok i) ↔ ∃ r ∈ opcodeTable, h &&& r.mask = r.pattern) ∧
  (∀ (h : Word), ∀ r ∈ opcodeTable, h &&& r.mask = r.pattern → opOf (opField h) = some r.op) ∧
  (∀ (h : Word), opcodeTable.Pairwise fun r q => ¬ (h &&& r.mask = r.pattern ∧ h &&& q.mask = q.pattern))

/-- R63: the packet length as a function of the header word alone, and that a step consumes exactly that many words,
whatever the packet and whatever it is answered. -/
def Obligations.PacketLengthFromHeader : Prop :=
  (∀ (s : State) (h : Word) (p rest : List Word), s.Ready → s.held ++ s.cmd = h :: (p ++ rest) →
    p.length + 1 = plen h → ∃ t, step s = .next t ∧ t.held = [] ∧ t.cmd = rest) ∧
  ∀ h : Word,
    let op := h.toNat % 256
    let f1 := h.toNat / 256 % 256
    let f2 := h.toNat / 65536 % 256
    plen h =
      (if op = 0x01 then 2 + (f1 + 3) / 4 + (f2 + 3) / 4
       else if op ∈ [0x02, 0x03, 0x11] then 2
       else if op ∈ [0x10, 0x12] then 3
       else if op = 0x13 then 5
       else 1) ∧
    1 ≤ plen h ∧ plen h ≤ 130

/-- Packets written out bit by bit in the spec decode to the commands they stand for (R90, R92, R94, R96, R101, R103,
R105, R111, R126, R135, R136, the Example lines). -/
def Obligations.ExamplePacketsDecode : Prop :=
  decode [0x00020202, 0xCCCC0002] = .command (.setw .nonce 2 0xCCCC0002) [] ∧
  decode [0x00FF0102, 0x00000001] = .command (.setw .key (-1) 1) [] ∧
  decode [0x00000711, 0x12345678] = .command (.rotl32 0x12345678 7) [] ∧
  decode [0x00008011, 0x12345678] = .command (.rotl32 0x12345678 (-128)) [] ∧
  decode [0x00000205] = .command (.getst .final) [] ∧
  decode [0x00000007] = .command .compute []

/-- A whole packet of a well-formed command at the head of the command stream: the step is that command on the state
with the packet consumed, words of it already received or not (R13, R63, R71). -/
def Obligations.StepRunsDecodedCommand : Prop :=
  ∀ (i : Instr), WellFormed i = true → RunsAs (encode i) i

/-- R32: words received so far affect no command's meaning. When `a`, a part of a packet with or without words already
held, is all that has come, words of it are still on the stream and `b` is the part missing, one step holds all of `a`
and changes nothing else; once `b` is sent the packet is performed as if it had arrived whole. That one step receives all
the words that wait, and so how many steps a packet in parts takes, is the model's choice (log 2). -/
def Obligations.SplitPacketRunsTheSame : Prop :=
  ∀ (i : Instr) (a b : List Word) (s : State), WellFormed i = true → encode i = a ++ b → b ≠ [] →
    s.Ready → s.held ++ s.cmd = a → s.cmd ≠ [] →
    step s = .next { s with held := a, cmd := [] } ∧
    step (State.hostSend { s with held := a, cmd := [] } b) = exec i { s with held := [], cmd := [] }

/-- 93_implementation_defined.md U10: no step is enabled exactly when no reset is asserted and either there is no room
for a response or no word has arrived beyond an incomplete packet. The exact condition is the model's: that a stuck state
is a named fault of step (log 3), that the room input stops the engine even before it receives words (log 4), and that
an asserted reset is taken before anything else (log 5). -/
def Obligations.StuckExactlyWhenWaiting : Prop :=
  ∀ (s : State),
    (step s = .fault .responseNotTaken ↔ s.rst = false ∧ s.room = false) ∧
    (step s = .fault .awaitingPacket ↔
      s.rst = false ∧ s.room = true ∧ s.cmd = [] ∧ ∀ h t, s.held = h :: t → s.held.length < plen h) ∧
    (∀ r, step s ≠ .refused r)

/-! ### The pure units -/

/-- R101, ADD32: its packet, its answer and its illegal headers. -/
def Obligations.Add32AnswersSum : Prop :=
  (∀ a b : Word, RunsAs [0x00000010, a, b] (.add32 a b)) ∧
  (∀ (a b : Word) (s : State), ∃ c : Word, c.toNat = (a.toNat + b.toNat) % 2 ^ 32 ∧
    Answers (.add32 a b) s s [0x00000100, c]) ∧
  (∀ h : Word, h.toNat % 256 = 0x10 → h ≠ 0x00000010 → AnswersIllegal h)

/-- R103, ROTL32: its packet for every amount in [-128, 127], its answer bit by bit for amounts in [0, 32), RangeError
outside, and its illegal headers. -/
def Obligations.Rotl32RotatesOrRaises : Prop :=
  (∀ (v : Word) (n : Int), -128 ≤ n → n < 128 →
    RunsAs [BitVec.ofNat 32 (0x11 + 256 * (n % 256).toNat), v] (.rotl32 v n)) ∧
  (∀ (v : Word) (n : Nat) (s : State), n < 32 → ∃ r : Word,
    (∀ i, i < 32 → r.getLsbD ((i + n) % 32) = v.getLsbD i) ∧ Answers (.rotl32 v n) s s [0x00000100, r]) ∧
  (∀ (v : Word) (n : Int) (s : State), n < 0 ∨ 32 ≤ n → Answers (.rotl32 v n) s s [0x00000002]) ∧
  (∀ h : Word, h.toNat % 256 = 0x11 → h.toNat / 65536 ≠ 0 → AnswersIllegal h)

/-- R105, XOR32: its packet, its answer bit by bit and its illegal headers. -/
def Obligations.Xor32AnswersXor : Prop :=
  (∀ a b : Word, RunsAs [0x00000012, a, b] (.xor32 a b)) ∧
  (∀ (a b : Word) (s : State), ∃ c : Word, (∀ i, i < 32 → c.getLsbD i = (a.getLsbD i != b.getLsbD i)) ∧
    Answers (.xor32 a b) s s [0x00000100, c]) ∧
  (∀ h : Word, h.toNat % 256 = 0x12 → h ≠ 0x00000012 → AnswersIllegal h)

/-- R111, QROUND: its packet, its answer by the twelve steps of R110, and its illegal headers. -/
def Obligations.QroundAnswersQuarterRound : Prop :=
  (∀ a b c d : Word, RunsAs [0x00000013, a, b, c, d] (.qround a b c d)) ∧
  (∀ (a b c d : Word) (s : State),
    let a1 := a + b
    let d1 := (d ^^^ a1).rotateLeft 16
    let c1 := c + d1
    let b1 := (b ^^^ c1).rotateLeft 12
    let a2 := a1 + b1
    let d2 := (d1 ^^^ a2).rotateLeft 8
    let c2 := c1 + d2
    let b2 := (b1 ^^^ c2).rotateLeft 7
    Answers (.qround a b c d) s s [0x00000400, a2, b2, c2, d2]) ∧
  (∀ h : Word, h.toNat % 256 = 0x13 → h ≠ 0x00000013 → AnswersIllegal h)

/-- R100: add32 is addition modulo 2^32, commutative, associative, with 0 neutral; the document's own test. -/
def Obligations.Add32Laws : Prop :=
  (∀ a b : Word, (add32 a b).toNat = (a.toNat + b.toNat) % 2 ^ 32) ∧
  (∀ a b : Word, add32 a b = add32 b a) ∧
  (∀ a b c : Word, add32 (add32 a b) c = add32 a (add32 b c)) ∧
  (∀ a : Word, add32 a 0 = a ∧ add32 0 a = a) ∧
  add32 0xFFFFFFFF 1 = 0

/-- R102: rotl32 for 0 <= n < 32 moves bit i to bit (i + n) mod 32; its arithmetic and slice forms; n = 0 is the
identity; n and 32 - n are inverses for 1 <= n <= 31; an amount outside [0, 32) is a RangeError, 32 included. -/
def Obligations.Rotl32Laws : Prop :=
  (∀ (v : Word) (n i : Nat), n < 32 → i < 32 → (rotl32 v n).getLsbD ((i + n) % 32) = v.getLsbD i) ∧
  (∀ (v : Word) (n : Nat), n < 32 →
    (rotl32 v n).toNat = (v.toNat * 2 ^ n) % 2 ^ 32 + v.toNat / 2 ^ (32 - n)) ∧
  (∀ (v : Word) (n : Nat), 0 < n → n < 32 →
    (rotl32 v n).toNat = (v.toNat % 2 ^ (32 - n)) * 2 ^ n + v.toNat / 2 ^ (32 - n)) ∧
  (∀ v : Word, rotl32 v 0 = v) ∧
  (∀ (v : Word) (n : Nat), 1 ≤ n → n ≤ 31 → rotl32 (rotl32 v n) (32 - n) = v) ∧
  (∀ (v : Word) (n : Int) (s : State), n < 0 ∨ 32 ≤ n → Answers (.rotl32 v n) s s [0x00000002])

/-- R104: xor32 bit by bit, commutative, associative, 0 neutral, every word its own inverse. -/
def Obligations.Xor32Laws : Prop :=
  (∀ (a b : Word) (i : Nat), i < 32 → (xor32 a b).getLsbD i = (a.getLsbD i != b.getLsbD i)) ∧
  (∀ a b : Word, xor32 a b = xor32 b a) ∧
  (∀ a b c : Word, xor32 (xor32 a b) c = xor32 a (xor32 b c)) ∧
  (∀ a : Word, xor32 a 0 = a ∧ xor32 0 a = a) ∧
  (∀ a : Word, xor32 a a = 0)

/-- R110 (its derived sentence): the quarter-round is a bijection on four-word tuples, with a fixed point at zero. -/
def Obligations.QuarterRoundBijective : Prop :=
  Function.Bijective qr ∧ qr ⟨0, 0, 0, 0⟩ = ⟨0, 0, 0, 0⟩

/-! ### The round function and COMPUTE -/

/-- R120: at four distinct indices the array takes the quarter-round's four words, in that order; the other twelve words
are unchanged. -/
def Obligations.QuarterRoundAtIndices : Prop :=
  ∀ (x : Block) (i j k l : Fin 16), i ≠ j → i ≠ k → i ≠ l → j ≠ k → j ≠ l → k ≠ l →
    (⟨(qrAt x i j k l)[i], (qrAt x i j k l)[j], (qrAt x i j k l)[k], (qrAt x i j k l)[l]⟩ : Quad) =
      qr ⟨x[i], x[j], x[k], x[l]⟩ ∧
    ∀ m : Fin 16, m ≠ i → m ≠ j → m ≠ k → m ≠ l → (qrAt x i j k l)[m] = x[m]

/-- R121, R122 and the formulas of R127: the column round is a quarter-round of each column of the argument and the
diagonal round one of each diagonal, so the order among the four of a round is immaterial. -/
def Obligations.RoundsActOnColumnsAndDiagonals : Prop :=
  ∀ (x : Block) (c : Fin 4),
    (let y := columnRound x
     (⟨y[c.val], y[4 + c.val], y[8 + c.val], y[12 + c.val]⟩ : Quad) =
       qr ⟨x[c.val], x[4 + c.val], x[8 + c.val], x[12 + c.val]⟩) ∧
    (let y := diagonalRound x
     (⟨y[c.val], y[4 + (c.val + 1) % 4], y[8 + (c.val + 2) % 4], y[12 + (c.val + 3) % 4]⟩ : Quad) =
       qr ⟨x[c.val], x[4 + (c.val + 1) % 4], x[8 + (c.val + 2) % 4], x[12 + (c.val + 3) % 4]⟩)

/-- R124 (its derived sentence): the permutation of ten double-rounds is a bijection on sixteen-word arrays. -/
def Obligations.PermutationBijective : Prop := Function.Bijective rounds

/-- R126, COMPUTE: its packet; W is the double-round applied ten times to S, F the word-wise sum modulo 2^32 of S and W;
nothing else changes; its illegal headers. -/
def Obligations.ComputePublishesBlock : Prop :=
  RunsAs [0x00000007] .compute ∧
  (∀ s : State, ∃ w f : Block, w = (fun x => diagonalRound (columnRound x))^[10] s.S ∧
    (∀ i : Fin 16, f[i].toNat = (s.S[i].toNat + w[i].toNat) % 2 ^ 32) ∧
    Answers .compute s { s with W := some w, F := some f } [0x00000000]) ∧
  (∀ h : Word, h.toNat % 256 = 0x07 → h ≠ 0x00000007 → AnswersIllegal h)

/-! ### The state engine -/

/-- R90, INIT: its packet for every pair of lengths; the state it constructs; LengthError on a bad length, nothing
written; its illegal headers. -/
def Obligations.InitConstructsOrRaises : Prop :=
  (∀ (klen nlen : Nat) (ctr : Word) (key nonce : List Word), klen < 256 → nlen < 256 →
    key.length = (klen + 3) / 4 → nonce.length = (nlen + 3) / 4 →
    RunsAs (BitVec.ofNat 32 (0x01 + 256 * klen + 65536 * nlen) :: ctr :: (key ++ nonce))
      (.init klen nlen ctr key nonce)) ∧
  (∀ (klen nlen : Nat) (ctr : Word) (key nonce : List Word) (s : State),
    klen % 4 = 0 → klen / 4 ≤ 8 → nlen % 4 = 0 → nlen / 4 ≤ 3 →
    key.length = (klen + 3) / 4 → nonce.length = (nlen + 3) / 4 →
    ∃ b : Block,
      (b[0] = 0x61707865 ∧ b[1] = 0x3320646E ∧ b[2] = 0x79622D32 ∧ b[3] = 0x6B206574) ∧
      (∀ j : Fin 8, b[4 + j.val] = if j.val < klen / 4 then key.getD j.val 0 else 0) ∧
      b[12] = ctr ∧
      (∀ j : Fin 3, b[13 + j.val] = if j.val < nlen / 4 then nonce.getD j.val 0 else 0) ∧
      Answers (.init klen nlen ctr key nonce) s { s with S := b, W := none, F := none } [0x00000000]) ∧
  (∀ (klen nlen : Nat) (ctr : Word) (key nonce : List Word) (s : State),
    klen % 4 ≠ 0 ∨ 8 < klen / 4 ∨ nlen % 4 ≠ 0 ∨ 3 < nlen / 4 →
    Answers (.init klen nlen ctr key nonce) s s [0x00000003]) ∧
  (∀ h : Word, h.toNat % 256 = 0x01 → h.toNat / 16777216 ≠ 0 → AnswersIllegal h)

/-- R92, SETW: its packet for every section and index; one word of S written; IndexError outside the section, nothing
written; its illegal headers. -/
def Obligations.SetwWritesOneWordOrRaises : Prop :=
  (∀ (sec : Section) (code : Nat) (idx : Int) (v : Word),
    (sec, code) ∈ [(Section.const, 0), (Section.key, 1), (Section.nonce, 2)] → -128 ≤ idx → idx < 128 →
    RunsAs [BitVec.ofNat 32 (0x02 + 256 * code + 65536 * (idx % 256).toNat), v] (.setw sec idx v)) ∧
  (∀ (sec : Section) (idx : Nat) (v : Word) (s : State), idx < (sectionRange sec).2 →
    ∃ b : Block, b.toList[(sectionRange sec).1 + idx]? = some v ∧
      (∀ k : Fin 16, k.val ≠ (sectionRange sec).1 + idx → b[k] = s.S[k]) ∧
      Answers (.setw sec idx v) s { s with S := b } [0x00000000]) ∧
  (∀ (sec : Section) (idx : Int) (v : Word) (s : State), idx < 0 ∨ (sectionRange sec).2 ≤ idx →
    Answers (.setw sec idx v) s s [0x00000001]) ∧
  (∀ h : Word, h.toNat % 256 = 0x02 → 3 ≤ h.toNat / 256 % 256 ∨ h.toNat / 16777216 ≠ 0 → AnswersIllegal h)

/-- R94, INCR: its packet; the sum on unbounded integers decides between the new counter and CounterOverflow; nothing
else changes; its illegal headers. -/
def Obligations.IncrAddsOrOverflows : Prop :=
  (∀ delta : Word, RunsAs [0x00000003, delta] (.incr delta)) ∧
  (∀ (delta : Word) (s : State), s.S[12].toNat + delta.toNat ≤ 0xFFFFFFFF →
    ∃ b : Block, b[12].toNat = s.S[12].toNat + delta.toNat ∧ (∀ k : Fin 16, k ≠ 12 → b[k] = s.S[k]) ∧
      Answers (.incr delta) s { s with S := b } [0x00000000]) ∧
  (∀ (delta : Word) (s : State), 0xFFFFFFFF < s.S[12].toNat + delta.toNat →
    Answers (.incr delta) s s [0x00000004]) ∧
  (∀ h : Word, h.toNat % 256 = 0x03 → h ≠ 0x00000003 → AnswersIllegal h)

/-- R95 (derived there): INCR overflows exactly when delta exceeds 0xFFFFFFFF - S[12] on words, when the wrapped sum is
below the counter, and when bit 31 of the addition carries out. -/
def Obligations.IncrOverflowEquivalentForms : Prop :=
  ∀ (delta : Word) (s : State),
    (Answers (.incr delta) s s [0x00000004] ↔ 0xFFFFFFFF - s.S[12] < delta) ∧
    (Answers (.incr delta) s s [0x00000004] ↔ s.S[12] + delta < s.S[12]) ∧
    (Answers (.incr delta) s s [0x00000004] ↔ BitVec.carry 32 s.S[12] delta false = true)

/-- R96, GETCTR: its packet, its answer and its illegal headers. -/
def Obligations.GetctrAnswersCounter : Prop :=
  RunsAs [0x00000004] .getctr ∧
  (∀ s : State, Answers .getctr s s [0x00000100, s.S[12]]) ∧
  (∀ h : Word, h.toNat % 256 = 0x04 → h ≠ 0x00000004 → AnswersIllegal h)

/-! ### Read-out -/

/-- R135, GETST: its packets; the sixteen words of the selected array, index 0 first; where it is absent, OK and some
sixteen words, with no change of S, W, F or the command stream; its illegal headers. -/
def Obligations.GetstAnswersArray : Prop :=
  (RunsAs [0x00000005] (.getst .initial) ∧ RunsAs [0x00000105] (.getst .intermediate) ∧
    RunsAs [0x00000205] (.getst .final)) ∧
  (∀ s : State, Answers (.getst .initial) s s (0x00001000 :: s.S.toList)) ∧
  (∀ (s : State) (b : Block), s.W = some b → Answers (.getst .intermediate) s s (0x00001000 :: b.toList)) ∧
  (∀ (s : State) (b : Block), s.F = some b → Answers (.getst .final) s s (0x00001000 :: b.toList)) ∧
  (∀ (s : State) (sel : Selector), (sel = .intermediate ∧ s.W = none) ∨ (sel = .final ∧ s.F = none) →
    ∃ (t : State) (ws : List Word), exec (.getst sel) s = .next t ∧ ws.length = 16 ∧
      t.rsp = s.rsp ++ 0x00001000 :: ws ∧ t.S = s.S ∧ t.W = s.W ∧ t.F = s.F ∧ t.held = s.held ∧ t.cmd = s.cmd) ∧
  (∀ h : Word, h.toNat % 256 = 0x05 → 3 ≤ h.toNat / 256 % 256 ∨ h.toNat / 65536 ≠ 0 → AnswersIllegal h)

/-- R136, SER: its packets; the 64 little-endian bytes of the selected array packed four to a word, so that byte k of
the payload is byte k mod 4 of word k div 4; where it is absent, OK and some sixteen words, with no change of S, W, F or
the command stream; its illegal headers. -/
def Obligations.SerAnswersLittleEndianBytes : Prop :=
  (RunsAs [0x00000006] (.ser .initial) ∧ RunsAs [0x00000106] (.ser .intermediate) ∧
    RunsAs [0x00000206] (.ser .final)) ∧
  (∀ (s : State) (sel : Selector) (b : Block),
    (sel = .initial ∧ s.S = b) ∨ (sel = .intermediate ∧ s.W = some b) ∨ (sel = .final ∧ s.F = some b) →
    ∃ ws : List Word, ws.length = 16 ∧
      (∀ k : Fin 64, (bytesOfWords ws)[k.val]? =
        some (BitVec.ofNat 8 (b[k.val / 4].toNat / 2 ^ (8 * (k.val % 4))))) ∧
      Answers (.ser sel) s s (0x00001000 :: ws)) ∧
  (∀ (s : State) (sel : Selector), (sel = .intermediate ∧ s.W = none) ∨ (sel = .final ∧ s.F = none) →
    ∃ (t : State) (ws : List Word), exec (.ser sel) s = .next t ∧ ws.length = 16 ∧
      t.rsp = s.rsp ++ 0x00001000 :: ws ∧ t.S = s.S ∧ t.W = s.W ∧ t.F = s.F ∧ t.held = s.held ∧ t.cmd = s.cmd) ∧
  (∀ h : Word, h.toNat % 256 = 0x06 → 3 ≤ h.toNat / 256 % 256 ∨ h.toNat / 65536 ≠ 0 → AnswersIllegal h)

/-- R47 (derived there): SER and GETST of one array answer the same payload words and leave the same state. For an absent
array, whose words R28 and U2 leave unspecified, that they would answer equal words in one and the same state is the
model's choice (log 7: both read at the same draw counter), not R47. -/
def Obligations.SerAndGetstAgree : Prop := ∀ (s : State) (sel : Selector), exec (.ser sel) s = exec (.getst sel) s

/-- R45: le_bytes by slices, byte k of a serialised array, the example, and that le_word and le_bytes are inverses. -/
def Obligations.SerialisationLittleEndian : Prop :=
  (∀ v : Word, leBytes v =
    [BitVec.ofNat 8 v.toNat, BitVec.ofNat 8 (v.toNat / 2 ^ 8), BitVec.ofNat 8 (v.toNat / 2 ^ 16),
      BitVec.ofNat 8 (v.toNat / 2 ^ 24)]) ∧
  (∀ b : Block, (serialize b).length = 64) ∧
  (∀ (b : Block) (k : Fin 64), (serialize b)[k.val]? =
    some (BitVec.ofNat 8 (b[k.val / 4].toNat / 2 ^ (8 * (k.val % 4))))) ∧
  leBytes 0xE4E7F110 = [0x10, 0xF1, 0xE7, 0xE4] ∧
  (∀ v : Word, wordsOfBytes (leBytes v) = [v]) ∧
  (∀ b0 b1 b2 b3 : Byte, leBytes (leWord b0 b1 b2 b3) = [b0, b1, b2, b3])

/-- The model's choice for R28 (log 7): an absent array reads as the next sixteen free words, and the next read draws
later ones. It holds for every value of the draw counter and says nothing of the words' values. -/
def Obligations.AbsentReadDrawsFreeWords : Prop :=
  ∀ (s : State) (sel : Selector), s.selected sel = none →
    ∃ ws : List Word, ws.length = 16 ∧ (∀ k : Fin 16, ws[k.val]? = some (Config.freeWord (s.draws + k.val))) ∧
      Answers (.getst sel) s { s with draws := s.draws + 16 } (0x00001000 :: ws) ∧
      Answers (.ser sel) s { s with draws := s.draws + 16 } (0x00001000 :: ws)

/-! ### Errors and responses -/

/-- R166: a step whose response has a non-zero status has consumed its whole packet, answered the single status word
with the error's code, and changed nothing else: no word of S, W or F and no presence mark. -/
def Obligations.FailedCommandChangesNothing : Prop :=
  ∀ (s t : State) (h : Word) (p rest : List Word) (c : Word) (payload : List Word), s.Ready →
    s.held ++ s.cmd = h :: (p ++ rest) → p.length + 1 = plen h → step s = .next t →
    t.rsp = s.rsp ++ c :: payload → statusField c ≠ 0 →
    payload = [] ∧ 1 ≤ c.toNat ∧ c.toNat ≤ 5 ∧
      t = { s with held := [], cmd := rest, rsp := s.rsp ++ [c] }

/-- R13, R65, R67: every command, in every state, answers a next state with exactly one response packet. -/
def Obligations.EveryCommandAnswersOnce : Prop :=
  ∀ (i : Instr) (s : State), ∃ (t : State) (r : List Word),
    exec i s = .next t ∧ t.rsp = s.rsp ++ r ∧ IsResponse r

/-- R168 (derived there): which command can answer which status. -/
def Obligations.StatusOfEachCommand : Prop :=
  ∀ (i : Instr) (s t : State) (c : Word) (payload : List Word), exec i s = .next t →
    t.rsp = s.rsp ++ c :: payload → statusField c ∈ possibleStatus i

/-- R169: a command does what it does whatever responses came before it: after an error it is taken as after OK. -/
def Obligations.EarlierResponsesChangeNoCommand : Prop :=
  ∀ (i : Instr) (s t : State) (r : List Word), exec i s = .next t →
    exec i { s with rsp := r } = .next { t with rsp := r ++ t.rsp.drop s.rsp.length }

/-- R50: packets that stand one after another on the command stream are performed in that order, one step each, exactly
as if each had arrived alone, and their responses leave in that order, one per packet. -/
def Obligations.ResponsesAnswerInOrder : Prop :=
  ∀ (ps : List (List Word)) (rest : List Word) (s : State), s.Ready → s.held = [] → s.cmd = [] →
    (∀ p ∈ ps, IsPacket p) →
    ∃ (rs : List (List Word)) (t : State), Performs s ps rs t ∧ t.rsp = s.rsp ++ rs.flatten ∧
      Sys2Proof.core.run ps.length { s with cmd := ps.flatten ++ rest } = .next { t with cmd := rest }

/-! ### What a command leaves unchanged -/

/-- R21 (the columns "written by"): a word of S changes only by INIT, by the SETW that addresses it, or, word 12, by
INCR. -/
def Obligations.WordsOfSWrittenAsMapped : Prop :=
  ∀ (i : Instr) (s t : State) (k : Fin 16), exec i s = .next t → t.S[k] ≠ s.S[k] →
    (∃ klen nlen ctr key nonce, i = .init klen nlen ctr key nonce) ∨
    (∃ sec idx v, i = .setw sec idx v ∧ (k.val : Int) = (sectionRange sec).1 + idx ∧
      0 ≤ idx ∧ idx < (sectionRange sec).2 ∧ t.S[k] = v) ∨
    (∃ delta, i = .incr delta ∧ k = 12)

/-- R25: the counter never wraps and never moves back, except where INIT sets it. -/
def Obligations.CounterNeverDecreases : Prop :=
  ∀ (i : Instr) (s t : State), exec i s = .next t →
    s.S[12].toNat ≤ t.S[12].toNat ∨ ∃ klen nlen ctr key nonce, i = .init klen nlen ctr key nonce ∧ t.S[12] = ctr

/-- R27: W and F change only by COMPUTE and by INIT, which makes both absent or, failing, leaves both. -/
def Obligations.BlocksWrittenOnlyByComputeAndInit : Prop :=
  (∀ (i : Instr) (s t : State), LeavesBlocks i → exec i s = .next t → t.W = s.W ∧ t.F = s.F) ∧
  (∀ (klen nlen : Nat) (ctr : Word) (key nonce : List Word) (s t : State),
    exec (.init klen nlen ctr key nonce) s = .next t → (t.W = none ∧ t.F = none) ∨ (t.W = s.W ∧ t.F = s.F)) ∧
  (∀ s t : State, exec .compute s = .next t → t.W.isSome = true ∧ t.F.isSome = true)

/-- R49: GETCTR, GETST, SER, COMPUTE and the pure units write no word of S; all but COMPUTE write no word of W or F; and
no command touches the command stream, a held packet or the inputs. -/
def Obligations.FramesOfAllCommands : Prop :=
  ∀ (i : Instr) (s t : State), exec i s = .next t →
    (WritesNoS i → t.S = s.S) ∧
    (WritesNoS i → i ≠ .compute → t.W = s.W ∧ t.F = s.F) ∧
    t.held = s.held ∧ t.cmd = s.cmd ∧ t.room = s.room ∧ t.rst = s.rst ∧
    (t.draws = s.draws ∨ ∃ sel, (i = .getst sel ∨ i = .ser sel) ∧ s.selected sel = none)

/-- R33: after COMPUTE, F is the block of S and stays so until a SETW, an INCR or an INIT; SETW and INCR leave W and F
as they were. -/
def Obligations.BlockCurrentUntilStateWritten : Prop :=
  (∀ s t : State, exec .compute s = .next t → t.Fresh) ∧
  (∀ (i : Instr) (s t : State), s.Fresh → WritesNoS i → exec i s = .next t → t.Fresh) ∧
  (∀ (sec : Section) (idx : Int) (v : Word) (s t : State), exec (.setw sec idx v) s = .next t →
    t.W = s.W ∧ t.F = s.F) ∧
  (∀ (delta : Word) (s t : State), exec (.incr delta) s = .next t → t.W = s.W ∧ t.F = s.F)

/-- R23: the constants stay what INIT and reset made them as long as no SETW const runs; a successful INIT restores
them. -/
def Obligations.ConstantsKeptUnlessSetwConst : Prop :=
  (∀ (i : Instr) (s t : State), s.ConstantsIntact → LeavesConstants i → exec i s = .next t → t.ConstantsIntact) ∧
  (∀ (klen nlen : Nat) (ctr : Word) (key nonce : List Word) (s t : State), klen % 4 = 0 → klen ≤ 32 →
    nlen % 4 = 0 → nlen ≤ 12 → exec (.init klen nlen ctr key nonce) s = .next t → t.ConstantsIntact) ∧
  State.reset.ConstantsIntact

/-! ### Invariants and reset -/

/-- R27, R32, R33: every step keeps the invariant: W and F absent together or together the block of some state, and a
held packet incomplete. -/
def Obligations.StepKeepsInvariant : Prop := ∀ s t : State, s.Inv → step s = .next t → t.Inv

/-- The invariant holds after reset. -/
def Obligations.ResetHasInvariant : Prop := State.reset.Inv

/-- R35: the state after reset. -/
def Obligations.ResetState : Prop :=
  State.reset.S = #v[0x61707865, 0x3320646E, 0x79622D32, 0x6B206574, 0, 0, 0, 0, 0, 0, 0, 0, 0, 0, 0, 0] ∧
  State.reset.W = none ∧ State.reset.F = none ∧ State.reset.held = []

/-- R185, R187: whatever state the engine is in, a step with reset asserted puts S, W and F at their reset values,
forgets a partly received packet and drops waiting response words. That the words of `cmd`, the input `room` and the
model's `draws` stay is the model's choice (log 5). -/
def Obligations.ResetEventFromAnyState : Prop :=
  ∀ s : State, s.rst = true → ∃ t : State, step s = .next t ∧ t.S = State.reset.S ∧ t.W = none ∧ t.F = none ∧
    t.held = [] ∧ t.rsp = [] ∧ t.rst = false ∧ t.cmd = s.cmd ∧ t.room = s.room ∧ t.draws = s.draws

/-- R35, R90 (corner cases): INIT with nothing given leaves S, W and F as reset does, but for the counter given. -/
def Obligations.EmptyInitGivesResetArrays : Prop :=
  ∀ (s : State) (ctr : Word), ∃ b : Block, b[12] = ctr ∧ (∀ k : Fin 16, k ≠ 12 → b[k] = State.reset.S[k]) ∧
    Answers (.init 0 0 ctr [] []) s { s with S := b, W := State.reset.W, F := State.reset.F } [0x00000000]

/-! ### Host sequences -/

/-- A host that sends one command to an idle engine gets that command's response and leaves the engine idle, in the
state the command's meaning gives (45_host_sequences.md, opening paragraph; R12). -/
def Obligations.TransactionIsExec : Prop :=
  ∀ (i : Instr) (e t : State), e.idle = true → WellFormed i = true → exec i e = .next t →
    transact i e = (readResponse t.rsp, { t with rsp := [] }) ∧ State.idle { t with rsp := [] } = true

/-- R128, R141: COMPUTE and SER final on an idle engine give the 64 bytes of the word-wise sum of S and its ten
double-rounds, and leave S as it is. -/
def Obligations.KeystreamBlockIsSerialisedSum : Prop :=
  ∀ e : State, e.idle = true → ∃ w f : Block, IsBlockOf e.S w f ∧
    keystreamBlock e = (.ok (serialize f), { e with W := some w, F := some f })

/-- R73, R144, R164: NEXTBLOCK advances the counter by one and gives the block of the new state, or, at 0xFFFFFFFF,
stops with CounterOverflow and leaves the engine as it was. -/
def Obligations.NextBlockAdvancesOrOverflows : Prop :=
  (∀ e : State, e.idle = true → e.S[12].toNat < 0xFFFFFFFF → ∃ b w f : Block,
    b[12].toNat = e.S[12].toNat + 1 ∧ (∀ k : Fin 16, k ≠ 12 → b[k] = e.S[k]) ∧ IsBlockOf b w f ∧
    nextBlock e = (.ok (serialize f), { e with S := b, W := some w, F := some f })) ∧
  (∀ e : State, e.idle = true → e.S[12] = 0xFFFFFFFF → nextBlock e = (.error (.raised .counterOverflow), e))

/-- R146 (involution): two Ciphers freshly constructed with the same key, nonce, counter and sub_counter, on any two
engines: transforming the first's output with the second gives back the input. -/
def Obligations.CipherRoundTrip : Prop :=
  ∀ (key nonce : List Byte) (ctr : Word) (sub : Int) (e1 e2 u1 u2 : State) (c1 c2 : Cipher) (xs : List Byte),
    cipherNew key nonce ctr sub e1 = (.ok c1, u1) → cipherNew key nonce ctr sub e2 = (.ok c2, u2) →
    (c1.transform xs).failed = none →
    (c2.transform (c1.transform xs).output).failed = none ∧ (c2.transform (c1.transform xs).output).output = xs

/-- R146 (continuation): two calls of transform on one Cipher continue the keystream. -/
def Obligations.TransformContinues : Prop :=
  ∀ (c : Cipher) (xs ys : List Byte), (c.transform xs).failed = none →
    (c.transform (xs ++ ys)).output = (c.transform xs).output ++ ((c.transform xs).cipher.transform ys).output ∧
    (c.transform (xs ++ ys)).cipher = ((c.transform xs).cipher.transform ys).cipher ∧
    (c.transform (xs ++ ys)).failed = ((c.transform xs).cipher.transform ys).failed

/-- R140, R145: the output is as long as the input unless the call was aborted, and then shorter; the cursor stays in
[0, 64]. -/
def Obligations.TransformLengthAndCursor : Prop :=
  ∀ (c : Cipher) (xs : List Byte),
    ((c.transform xs).failed = none → (c.transform xs).output.length = xs.length) ∧
    ((c.transform xs).failed ≠ none → (c.transform xs).output.length < xs.length) ∧
    (c.sub ≤ 64 → (c.transform xs).cipher.sub ≤ 64)

/-- R194: a block-boundary step that fails with CounterOverflow leaves the cursor at 0, the old counter and the old
cached block. -/
def Obligations.OverflowedCipherKeepsOldBlock : Prop :=
  ∀ c : Cipher, c.engine.idle = true → c.engine.S[12] = 0xFFFFFFFF →
    c.boundary = (some (.raised .counterOverflow), { c with sub := 0 })

/-- R142: CIPHER.SETSUB accepts [0, 64) and raises IndexError outside; it sends no command and keeps the cached
block. -/
def Obligations.SetSubBoundsChecked : Prop :=
  ∀ (c : Cipher) (i : Int),
    (0 ≤ i ∧ i < 64 → c.setSub i = .ok { c with sub := i.toNat }) ∧
    (i < 0 ∨ 64 ≤ i → c.setSub i = .error (.raised .indexError))

/-- R152: RANDOM.RAND below the sixteenth word, at the sixteenth, and at the sixteenth with the counter at
0xFFFFFFFF. The third clause is inference, DEDUCED (log 10): the spec derives it from the order of the steps, that no word
is returned in R152 and that the cursor is 0 with the old words cached in R194. -/
def Obligations.RandReturnsWordOrOverflows : Prop :=
  (∀ r : RandomSeq, r.widx < 15 → r.rand = (.ok (r.fw.getD r.widx 0), { r with widx := r.widx + 1 })) ∧
  (∀ r : RandomSeq, r.widx = 15 → r.engine.idle = true → r.engine.S[12].toNat < 0xFFFFFFFF → ∃ b w f : Block,
    b[12].toNat = r.engine.S[12].toNat + 1 ∧ (∀ k : Fin 16, k ≠ 12 → b[k] = r.engine.S[k]) ∧ IsBlockOf b w f ∧
    r.rand = (.ok (r.fw.getD 15 0), ⟨{ r.engine with S := b, W := some w, F := some f }, 0, f.toList⟩)) ∧
  (∀ r : RandomSeq, r.widx = 15 → r.engine.idle = true → r.engine.S[12] = 0xFFFFFFFF →
    r.rand = (.error (.raised .counterOverflow), { r with widx := 0 }))
end

