-- ==== Sys2Proof/Laws/Decode.lean ====
section
/-! SUPPORT. The small lemmas of the header's fields and of the decoder. -/

namespace Sys2Proof

theorem opField_toNat (h : Word) : (opField h).toNat = h.toNat % 256 := by
  simp [opField]

theorem f1Field_toNat (h : Word) : (f1Field h).toNat = h.toNat / 256 % 256 := by
  simp [f1Field, Nat.shiftRight_eq_div_pow]

theorem f2Field_toNat (h : Word) : (f2Field h).toNat = h.toNat / 65536 % 256 := by
  simp [f2Field, Nat.shiftRight_eq_div_pow]

theorem f3Field_toNat (h : Word) : (f3Field h).toNat = h.toNat / 16777216 := by
  have := h.isLt
  simp [f3Field, Nat.shiftRight_eq_div_pow]; omega

/-- A header word is its four fields. -/
theorem header_fields (h : Word) :
    h.toNat = (opField h).toNat + 256 * (f1Field h).toNat + 65536 * (f2Field h).toNat
      + 16777216 * (f3Field h).toNat := by
  have := h.isLt
  rw [opField_toNat, f1Field_toNat, f2Field_toNat, f3Field_toNat]; omega

theorem Op.code_lt (o : Op) : o.code < 256 := by cases o <;> decide

theorem opOf_code (o : Op) : opOf (BitVec.ofNat 8 o.code) = some o := by cases o <;> rfl

section
variable {o : Op} {f1 f2 : Nat} (h1 : f1 < 256) (h2 : f2 < 256)
include h1 h2

theorem header_toNat : (header o f1 f2).toNat = o.code + 256 * f1 + 65536 * f2 := by
  have := o.code_lt
  simp only [header, BitVec.toNat_ofNat]; omega

theorem opField_header : opField (header o f1 f2) = BitVec.ofNat 8 o.code := by
  have := o.code_lt
  apply BitVec.eq_of_toNat_eq
  rw [opField_toNat, header_toNat h1 h2, BitVec.toNat_ofNat]; omega

theorem f1Field_header : f1Field (header o f1 f2) = BitVec.ofNat 8 f1 := by
  have := o.code_lt
  apply BitVec.eq_of_toNat_eq
  rw [f1Field_toNat, header_toNat h1 h2, BitVec.toNat_ofNat]; omega

theorem f2Field_header : f2Field (header o f1 f2) = BitVec.ofNat 8 f2 := by
  have := o.code_lt
  apply BitVec.eq_of_toNat_eq
  rw [f2Field_toNat, header_toNat h1 h2, BitVec.toNat_ofNat]; omega

theorem f3Field_header : f3Field (header o f1 f2) = 0 := by
  have := o.code_lt
  apply BitVec.eq_of_toNat_eq
  rw [f3Field_toNat, header_toNat h1 h2]; simp; omega

theorem opOf_header : opOf (opField (header o f1 f2)) = some o := by
  rw [opField_header h1 h2, opOf_code]

theorem plen_header :
    plen (header o f1 f2) = 1 + payloadWords o (BitVec.ofNat 8 f1) (BitVec.ofNat 8 f2) := by
  simp only [plen, opOf_header h1 h2, f1Field_header h1 h2, f2Field_header h1 h2]

theorem decodePacket_header (p : List Word) : decodePacket (header o f1 f2) p = assemble o (header o f1 f2) p := by
  simp only [decodePacket, opOf_header h1 h2]

/-- A header the encoder writes sets no reserved field where the encoder writes zeros. -/
theorem reservedFieldSet_header (k1 : o.f1Reserved = true → f1 = 0) (k2 : o.f2Reserved = true → f2 = 0) :
    reservedFieldSet o (header o f1 f2) = false := by
  simp only [reservedFieldSet, f1Field_header h1 h2, f2Field_header h1 h2, f3Field_header h1 h2]
  cases h : o.f1Reserved <;> cases h' : o.f2Reserved <;> simp_all
end

theorem signed8_lt (n : Int) : signed8 n < 256 := (BitVec.ofInt 8 n).isLt

theorem fitsSigned8_iff (n : Int) : fitsSigned8 n = true ↔ -128 ≤ n ∧ n < 128 := by
  simp [fitsSigned8]

/-- The two's-complement field gives back every integer it can carry (30_encoding.md R64). -/
theorem toInt_signed8 {n : Int} (h : fitsSigned8 n = true) : (BitVec.ofNat 8 (signed8 n)).toInt = n := by
  rw [fitsSigned8_iff] at h
  simp only [signed8, BitVec.ofNat_toNat, BitVec.setWidth_eq, BitVec.toInt_ofInt]
  apply Int.bmod_eq_of_le <;> omega

theorem plen_pos (h : Word) : 1 ≤ plen h := by
  unfold plen; split <;> omega

/-- Where the words of a whole packet stand at the head, decoding depends on them alone. -/
theorem decode_packet {h : Word} {p rest : List Word} (hp : p.length + 1 = plen h) :
    decode (h :: (p ++ rest)) =
      (match decodePacket h p with
        | .ok i => .command i rest
        | .error why => .illegal why rest) := by
  have hlen : plen h - 1 = p.length := by omega
  have hge : ¬ (p ++ rest).length + 1 < plen h := by rw [List.length_append]; omega
  cases hd : decodePacket h p <;> simp only [decode, hlen, if_neg hge, List.take_left, List.drop_left, hd]

theorem decode_incomplete_iff (ws : List Word) :
    decode ws = .incomplete ↔ ∀ h t, ws = h :: t → ws.length < plen h := by
  cases ws with
  | nil => simp [decode]
  | cons h t =>
    simp only [decode]
    split
    · rename_i hlt
      simp only [true_iff]
      rintro a b hab
      cases hab
      simpa using hlt
    · rename_i hge
      constructor
      · intro hc
        split at hc <;> cases hc
      · intro hall
        have := hall h t rfl
        simp at this; omega

end Sys2Proof
end

