-- ==== Sys2Proof/Laws/State.lean ====
section
/-! SUPPORT. One lemma per field per update of State, each true by rfl, so that no later proof unfolds an update. -/

namespace Sys2Proof.Machine

section
variable (s : State)

@[simp] theorem State.writeS_S (i : Nat) (v : Word) : (s.writeS i v).S = s.S.setIfInBounds i v := rfl
@[simp] theorem State.writeS_W (i : Nat) (v : Word) : (s.writeS i v).W = s.W := rfl
@[simp] theorem State.writeS_F (i : Nat) (v : Word) : (s.writeS i v).F = s.F := rfl
@[simp] theorem State.writeS_held (i : Nat) (v : Word) : (s.writeS i v).held = s.held := rfl
@[simp] theorem State.writeS_cmd (i : Nat) (v : Word) : (s.writeS i v).cmd = s.cmd := rfl
@[simp] theorem State.writeS_rsp (i : Nat) (v : Word) : (s.writeS i v).rsp = s.rsp := rfl
@[simp] theorem State.writeS_room (i : Nat) (v : Word) : (s.writeS i v).room = s.room := rfl
@[simp] theorem State.writeS_rst (i : Nat) (v : Word) : (s.writeS i v).rst = s.rst := rfl
@[simp] theorem State.writeS_draws (i : Nat) (v : Word) : (s.writeS i v).draws = s.draws := rfl

@[simp] theorem State.construct_S (b : Block) : (s.construct b).S = b := rfl
@[simp] theorem State.construct_W (b : Block) : (s.construct b).W = none := rfl
@[simp] theorem State.construct_F (b : Block) : (s.construct b).F = none := rfl
@[simp] theorem State.construct_held (b : Block) : (s.construct b).held = s.held := rfl
@[simp] theorem State.construct_cmd (b : Block) : (s.construct b).cmd = s.cmd := rfl
@[simp] theorem State.construct_rsp (b : Block) : (s.construct b).rsp = s.rsp := rfl
@[simp] theorem State.construct_room (b : Block) : (s.construct b).room = s.room := rfl
@[simp] theorem State.construct_rst (b : Block) : (s.construct b).rst = s.rst := rfl
@[simp] theorem State.construct_draws (b : Block) : (s.construct b).draws = s.draws := rfl

@[simp] theorem State.publish_S (w f : Block) : (s.publish w f).S = s.S := rfl
@[simp] theorem State.publish_W (w f : Block) : (s.publish w f).W = some w := rfl
@[simp] theorem State.publish_F (w f : Block) : (s.publish w f).F = some f := rfl
@[simp] theorem State.publish_held (w f : Block) : (s.publish w f).held = s.held := rfl
@[simp] theorem State.publish_cmd (w f : Block) : (s.publish w f).cmd = s.cmd := rfl
@[simp] theorem State.publish_rsp (w f : Block) : (s.publish w f).rsp = s.rsp := rfl
@[simp] theorem State.publish_room (w f : Block) : (s.publish w f).room = s.room := rfl
@[simp] theorem State.publish_rst (w f : Block) : (s.publish w f).rst = s.rst := rfl
@[simp] theorem State.publish_draws (w f : Block) : (s.publish w f).draws = s.draws := rfl

@[simp] theorem State.emit_S (p : List Word) : (s.emit p).S = s.S := rfl
@[simp] theorem State.emit_W (p : List Word) : (s.emit p).W = s.W := rfl
@[simp] theorem State.emit_F (p : List Word) : (s.emit p).F = s.F := rfl
@[simp] theorem State.emit_held (p : List Word) : (s.emit p).held = s.held := rfl
@[simp] theorem State.emit_cmd (p : List Word) : (s.emit p).cmd = s.cmd := rfl
@[simp] theorem State.emit_rsp (p : List Word) : (s.emit p).rsp = s.rsp ++ p := rfl
@[simp] theorem State.emit_room (p : List Word) : (s.emit p).room = s.room := rfl
@[simp] theorem State.emit_rst (p : List Word) : (s.emit p).rst = s.rst := rfl
@[simp] theorem State.emit_draws (p : List Word) : (s.emit p).draws = s.draws := rfl

@[simp] theorem State.answered_S (p : List Word) : (s.answered p).S = s.S := rfl
@[simp] theorem State.answered_W (p : List Word) : (s.answered p).W = s.W := rfl
@[simp] theorem State.answered_F (p : List Word) : (s.answered p).F = s.F := rfl
@[simp] theorem State.answered_held (p : List Word) : (s.answered p).held = s.held := rfl
@[simp] theorem State.answered_cmd (p : List Word) : (s.answered p).cmd = s.cmd := rfl
@[simp] theorem State.answered_rsp (p : List Word) : (s.answered p).rsp = s.rsp ++ statusWord 0 p.length :: p := rfl
@[simp] theorem State.answered_room (p : List Word) : (s.answered p).room = s.room := rfl
@[simp] theorem State.answered_rst (p : List Word) : (s.answered p).rst = s.rst := rfl
@[simp] theorem State.answered_draws (p : List Word) : (s.answered p).draws = s.draws := rfl

@[simp] theorem State.failed_S (e : ErrorCode) : (s.failed e).S = s.S := rfl
@[simp] theorem State.failed_W (e : ErrorCode) : (s.failed e).W = s.W := rfl
@[simp] theorem State.failed_F (e : ErrorCode) : (s.failed e).F = s.F := rfl
@[simp] theorem State.failed_held (e : ErrorCode) : (s.failed e).held = s.held := rfl
@[simp] theorem State.failed_cmd (e : ErrorCode) : (s.failed e).cmd = s.cmd := rfl
@[simp] theorem State.failed_rsp (e : ErrorCode) : (s.failed e).rsp = s.rsp ++ [statusWord e.code 0] := rfl
@[simp] theorem State.failed_room (e : ErrorCode) : (s.failed e).room = s.room := rfl
@[simp] theorem State.failed_rst (e : ErrorCode) : (s.failed e).rst = s.rst := rfl
@[simp] theorem State.failed_draws (e : ErrorCode) : (s.failed e).draws = s.draws := rfl

@[simp] theorem State.consume_S (rest : List Word) : (s.consume rest).S = s.S := rfl
@[simp] theorem State.consume_W (rest : List Word) : (s.consume rest).W = s.W := rfl
@[simp] theorem State.consume_F (rest : List Word) : (s.consume rest).F = s.F := rfl
@[simp] theorem State.consume_held (rest : List Word) : (s.consume rest).held = [] := rfl
@[simp] theorem State.consume_cmd (rest : List Word) : (s.consume rest).cmd = rest := rfl
@[simp] theorem State.consume_rsp (rest : List Word) : (s.consume rest).rsp = s.rsp := rfl
@[simp] theorem State.consume_room (rest : List Word) : (s.consume rest).room = s.room := rfl
@[simp] theorem State.consume_rst (rest : List Word) : (s.consume rest).rst = s.rst := rfl
@[simp] theorem State.consume_draws (rest : List Word) : (s.consume rest).draws = s.draws := rfl

@[simp] theorem State.hold_S : (s.hold).S = s.S := rfl
@[simp] theorem State.hold_W : (s.hold).W = s.W := rfl
@[simp] theorem State.hold_F : (s.hold).F = s.F := rfl
@[simp] theorem State.hold_held : (s.hold).held = s.held ++ s.cmd := rfl
@[simp] theorem State.hold_cmd : (s.hold).cmd = [] := rfl
@[simp] theorem State.hold_rsp : (s.hold).rsp = s.rsp := rfl
@[simp] theorem State.hold_room : (s.hold).room = s.room := rfl
@[simp] theorem State.hold_rst : (s.hold).rst = s.rst := rfl
@[simp] theorem State.hold_draws : (s.hold).draws = s.draws := rfl

@[simp] theorem State.takeReset_S : (s.takeReset).S = resetBlock := rfl
@[simp] theorem State.takeReset_W : (s.takeReset).W = none := rfl
@[simp] theorem State.takeReset_F : (s.takeReset).F = none := rfl
@[simp] theorem State.takeReset_held : (s.takeReset).held = [] := rfl
@[simp] theorem State.takeReset_cmd : (s.takeReset).cmd = s.cmd := rfl
@[simp] theorem State.takeReset_rsp : (s.takeReset).rsp = [] := rfl
@[simp] theorem State.takeReset_room : (s.takeReset).room = s.room := rfl
@[simp] theorem State.takeReset_rst : (s.takeReset).rst = false := rfl
@[simp] theorem State.takeReset_draws : (s.takeReset).draws = s.draws := rfl

@[simp] theorem State.hostSend_S (ws : List Word) : (s.hostSend ws).S = s.S := rfl
@[simp] theorem State.hostSend_W (ws : List Word) : (s.hostSend ws).W = s.W := rfl
@[simp] theorem State.hostSend_F (ws : List Word) : (s.hostSend ws).F = s.F := rfl
@[simp] theorem State.hostSend_held (ws : List Word) : (s.hostSend ws).held = s.held := rfl
@[simp] theorem State.hostSend_cmd (ws : List Word) : (s.hostSend ws).cmd = s.cmd ++ ws := rfl
@[simp] theorem State.hostSend_rsp (ws : List Word) : (s.hostSend ws).rsp = s.rsp := rfl
@[simp] theorem State.hostSend_room (ws : List Word) : (s.hostSend ws).room = s.room := rfl
@[simp] theorem State.hostSend_rst (ws : List Word) : (s.hostSend ws).rst = s.rst := rfl
@[simp] theorem State.hostSend_draws (ws : List Word) : (s.hostSend ws).draws = s.draws := rfl

@[simp] theorem State.hostTake_S (n : Nat) : (s.hostTake n).S = s.S := rfl
@[simp] theorem State.hostTake_W (n : Nat) : (s.hostTake n).W = s.W := rfl
@[simp] theorem State.hostTake_F (n : Nat) : (s.hostTake n).F = s.F := rfl
@[simp] theorem State.hostTake_held (n : Nat) : (s.hostTake n).held = s.held := rfl
@[simp] theorem State.hostTake_cmd (n : Nat) : (s.hostTake n).cmd = s.cmd := rfl
@[simp] theorem State.hostTake_rsp (n : Nat) : (s.hostTake n).rsp = s.rsp.drop n := rfl
@[simp] theorem State.hostTake_room (n : Nat) : (s.hostTake n).room = s.room := rfl
@[simp] theorem State.hostTake_rst (n : Nat) : (s.hostTake n).rst = s.rst := rfl
@[simp] theorem State.hostTake_draws (n : Nat) : (s.hostTake n).draws = s.draws := rfl

@[simp] theorem State.hostReset_S : (s.hostReset).S = s.S := rfl
@[simp] theorem State.hostReset_W : (s.hostReset).W = s.W := rfl
@[simp] theorem State.hostReset_F : (s.hostReset).F = s.F := rfl
@[simp] theorem State.hostReset_held : (s.hostReset).held = s.held := rfl
@[simp] theorem State.hostReset_cmd : (s.hostReset).cmd = s.cmd := rfl
@[simp] theorem State.hostReset_rsp : (s.hostReset).rsp = s.rsp := rfl
@[simp] theorem State.hostReset_room : (s.hostReset).room = s.room := rfl
@[simp] theorem State.hostReset_rst : (s.hostReset).rst = true := rfl
@[simp] theorem State.hostReset_draws : (s.hostReset).draws = s.draws := rfl

@[simp] theorem State.hostRoom_S (b : Bool) : (s.hostRoom b).S = s.S := rfl
@[simp] theorem State.hostRoom_W (b : Bool) : (s.hostRoom b).W = s.W := rfl
@[simp] theorem State.hostRoom_F (b : Bool) : (s.hostRoom b).F = s.F := rfl
@[simp] theorem State.hostRoom_held (b : Bool) : (s.hostRoom b).held = s.held := rfl
@[simp] theorem State.hostRoom_cmd (b : Bool) : (s.hostRoom b).cmd = s.cmd := rfl
@[simp] theorem State.hostRoom_rsp (b : Bool) : (s.hostRoom b).rsp = s.rsp := rfl
@[simp] theorem State.hostRoom_room (b : Bool) : (s.hostRoom b).room = b := rfl
@[simp] theorem State.hostRoom_rst (b : Bool) : (s.hostRoom b).rst = s.rst := rfl
@[simp] theorem State.hostRoom_draws (b : Bool) : (s.hostRoom b).draws = s.draws := rfl

@[simp] theorem State.withFetchWord_S (nbits w : Nat) : (s.withFetchWord nbits w).S = s.S := rfl
@[simp] theorem State.withFetchWord_W (nbits w : Nat) : (s.withFetchWord nbits w).W = s.W := rfl
@[simp] theorem State.withFetchWord_F (nbits w : Nat) : (s.withFetchWord nbits w).F = s.F := rfl
@[simp] theorem State.withFetchWord_held (nbits w : Nat) : (s.withFetchWord nbits w).held = [] := rfl
@[simp] theorem State.withFetchWord_cmd (nbits w : Nat) : (s.withFetchWord nbits w).cmd = tableWords nbits w ++ s.cmd := rfl
@[simp] theorem State.withFetchWord_rsp (nbits w : Nat) : (s.withFetchWord nbits w).rsp = s.rsp := rfl
@[simp] theorem State.withFetchWord_room (nbits w : Nat) : (s.withFetchWord nbits w).room = true := rfl
@[simp] theorem State.withFetchWord_rst (nbits w : Nat) : (s.withFetchWord nbits w).rst = false := rfl
@[simp] theorem State.withFetchWord_draws (nbits w : Nat) : (s.withFetchWord nbits w).draws = s.draws := rfl

@[simp] theorem State.counter_eq : s.counter = s.S[12] := rfl
@[simp] theorem State.arrived_eq : s.arrived = s.held ++ s.cmd := rfl

end

/-! ### The reset state, field by field -/

@[simp] theorem State.reset_S : State.reset.S = resetBlock := rfl
@[simp] theorem State.reset_W : State.reset.W = none := rfl
@[simp] theorem State.reset_F : State.reset.F = none := rfl
@[simp] theorem State.reset_held : State.reset.held = [] := rfl
@[simp] theorem State.reset_cmd : State.reset.cmd = [] := rfl
@[simp] theorem State.reset_rsp : State.reset.rsp = [] := rfl
@[simp] theorem State.reset_room : State.reset.room = true := rfl
@[simp] theorem State.reset_rst : State.reset.rst = false := rfl
@[simp] theorem State.reset_draws : State.reset.draws = 0 := rfl

/-- Two states with equal fields are equal. -/
theorem State.eq_of_fields {s t : State} (hS : s.S = t.S) (hW : s.W = t.W) (hF : s.F = t.F) (hh : s.held = t.held)
    (hc : s.cmd = t.cmd) (hr : s.rsp = t.rsp) (hm : s.room = t.room) (ht : s.rst = t.rst)
    (hd : s.draws = t.draws) : s = t := by
  cases s; cases t; simp_all

end Sys2Proof.Machine
end

