-- ==== Sys2Proof/Laws/Ops.lean ====
section
/-! SUPPORT. What each shared operation and each meaning can do, said once (inversion lemmas for the provers to cite). -/

namespace Sys2Proof.Machine

variable {s t : State}

/-! ### Answers -/

theorem respond_next (p : List Word) (s : State) : respond p s = .next (s.answered p) := rfl

theorem raise_next (e : ErrorCode) (s : State) : raise e s = .next (s.failed e) := rfl

theorem respond_cases {p : List Word} (h : respond p s = .next t) : t = s.answered p := by
  cases h; rfl

theorem raise_cases {e : ErrorCode} (h : raise e s = .next t) : t = s.failed e := by
  cases h; rfl

/-! ### Conditions -/

theorem counterOverflows_iff (c d : Word) : counterOverflows c d = true ↔ 2 ^ 32 ≤ c.toNat + d.toNat := by
  simp [counterOverflows]; omega

theorem counterOverflows_false_iff (c d : Word) : counterOverflows c d = false ↔ c.toNat + d.toNat < 2 ^ 32 := by
  simp [counterOverflows]; omega

theorem lengthOk_iff (n cap : Nat) : lengthOk n cap = true ↔ n % 4 = 0 ∧ n / 4 ≤ cap := by
  simp [lengthOk]

theorem inRange_iff (n : Int) (b : Nat) : inRange n b = true ↔ 0 ≤ n ∧ n < b := by
  simp [inRange]

theorem statusWord_toNat {st n : Nat} (hs : st < 256) (hn : n < 256) : (statusWord st n).toNat = st + 256 * n := by
  simp only [statusWord, BitVec.toNat_ofNat]; omega

theorem statusField_statusWord {st n : Nat} (hs : st < 256) (hn : n < 256) : statusField (statusWord st n) = st := by
  simp only [statusField, BitVec.extractLsb'_toNat, statusWord_toNat hs hn, Nat.shiftRight_zero]; omega

theorem countField_statusWord {st n : Nat} (hs : st < 256) (hn : n < 256) : countField (statusWord st n) = n := by
  simp only [countField, BitVec.extractLsb'_toNat, statusWord_toNat hs hn, Nat.shiftRight_eq_div_pow]; omega

/-! ### Reading an array -/

theorem readArray_present {sel : Selector} {b : Block} (h : s.selected sel = some b) : readArray sel s = (b, s) := by
  simp [readArray, h]

theorem readArray_absent {sel : Selector} (h : s.selected sel = none) :
    readArray sel s = (unspecifiedBlock s.draws, { s with draws := s.draws + 16 }) := by
  simp [readArray, h]

@[simp] theorem selected_initial (s : State) : s.selected .initial = some s.S := rfl
@[simp] theorem selected_intermediate (s : State) : s.selected .intermediate = s.W := rfl
@[simp] theorem selected_final (s : State) : s.selected .final = s.F := rfl

/-- A read changes at most the count of draws. -/
theorem readArray_state (sel : Selector) (s : State) :
    ∃ d, (readArray sel s).2 = { s with draws := d } := by
  cases h : s.selected sel with
  | some b => exact ⟨s.draws, by rw [readArray_present h]⟩
  | none => exact ⟨s.draws + 16, by rw [readArray_absent h]⟩

/-! ### The meanings -/

theorem execInit_cases {klen nlen ctr key nonce} (h : execInit klen nlen ctr key nonce s = .next t) :
    (lengthOk klen Config.keyWords = true ∧ lengthOk nlen Config.nonceWords = true ∧
      t = (s.construct (constructedBlock klen nlen ctr key nonce)).answered []) ∨
    ((lengthOk klen Config.keyWords = false ∨ lengthOk nlen Config.nonceWords = false) ∧ t = s.failed .lengthError) := by
  unfold execInit at h
  split at h
  · rename_i hok
    simp only [Bool.and_eq_true] at hok
    exact .inl ⟨hok.1, hok.2, respond_cases h⟩
  · rename_i hbad
    refine .inr ⟨?_, raise_cases h⟩
    cases hk : lengthOk klen Config.keyWords <;> simp_all

theorem execSetw_cases {sec idx v} (h : execSetw sec idx v s = .next t) :
    (inRange idx (sectionLength sec) = true ∧ t = (s.writeS (sectionBase sec + idx.toNat) v).answered []) ∨
    (inRange idx (sectionLength sec) = false ∧ t = s.failed .indexError) := by
  unfold execSetw at h
  split at h
  · exact .inl ⟨‹_›, respond_cases h⟩
  · exact .inr ⟨Bool.eq_false_iff.mpr ‹_›, raise_cases h⟩

theorem execIncr_cases {delta} (h : execIncr delta s = .next t) :
    (counterOverflows s.counter delta = true ∧ t = s.failed .counterOverflow) ∨
    (counterOverflows s.counter delta = false ∧ t = (s.writeS 12 (add32 s.counter delta)).answered []) := by
  unfold execIncr at h
  split at h
  · exact .inl ⟨‹_›, raise_cases h⟩
  · exact .inr ⟨Bool.eq_false_iff.mpr ‹_›, respond_cases h⟩

theorem execRotl32_cases {v n} (h : execRotl32 v n s = .next t) :
    (inRange n 32 = true ∧ t = s.answered [rotl32 v n.toNat]) ∨ (inRange n 32 = false ∧ t = s.failed .rangeError) := by
  unfold execRotl32 at h
  split at h
  · exact .inl ⟨‹_›, respond_cases h⟩
  · exact .inr ⟨Bool.eq_false_iff.mpr ‹_›, raise_cases h⟩

theorem execGetst_cases {sel} (h : execGetst sel s = .next t) :
    t = (readArray sel s).2.answered (readArray sel s).1.toList := respond_cases h

theorem execSer_cases {sel} (h : execSer sel s = .next t) :
    t = (readArray sel s).2.answered (wordsOfBytes (serialize (readArray sel s).1)) := respond_cases h

theorem execCompute_cases (h : execCompute s = .next t) :
    t = (s.publish (rounds s.S) (addBlocks s.S (rounds s.S))).answered [] := respond_cases h

theorem addBlocks_getElem (x y : Block) (i : Fin 16) : (addBlocks x y)[i] = add32 x[i] y[i] := by
  simp [addBlocks]

/-! ### Fetching and stepping -/

theorem fetch_cases (s : State) :
    (s.rst = true ∧ fetch s = .done s.takeReset) ∨
    (s.rst = false ∧ s.room = true ∧ fetch s = receive s) ∨
    (s.rst = false ∧ s.room = false ∧ fetch s = .stuck .responseNotTaken) := by
  unfold fetch
  cases s.rst <;> cases s.room <;> simp

theorem receive_cases (s : State) :
    (∃ i rest, decode s.arrived = .command i rest ∧ receive s = .command i (s.consume rest)) ∨
    (∃ why rest, decode s.arrived = .illegal why rest ∧
      receive s = .done ((s.consume rest).failed .illegalCommand)) ∨
    (decode s.arrived = .incomplete ∧ s.cmd = [] ∧ receive s = .stuck .awaitingPacket) ∨
    (decode s.arrived = .incomplete ∧ s.cmd ≠ [] ∧ receive s = .done s.hold) := by
  unfold receive
  cases h : decode s.arrived with
  | command i rest => exact .inl ⟨i, rest, rfl, rfl⟩
  | illegal why rest => exact .inr (.inl ⟨why, rest, rfl, rfl⟩)
  | incomplete => cases hc : s.cmd <;> simp

/-- Everything one step can do. -/
theorem step_cases (h : step s = .next t) :
    (s.rst = true ∧ t = s.takeReset) ∨
    (s.rst = false ∧ s.room = true ∧
      ((∃ i rest, decode s.arrived = .command i rest ∧ exec i (s.consume rest) = .next t) ∨
        (∃ why rest, decode s.arrived = .illegal why rest ∧ t = (s.consume rest).failed .illegalCommand) ∨
        (decode s.arrived = .incomplete ∧ s.cmd ≠ [] ∧ t = s.hold))) := by
  unfold step at h
  rcases fetch_cases s with ⟨hr, hf⟩ | ⟨hr, hm, hf⟩ | ⟨_, _, hf⟩
  · rw [hf] at h; cases h; exact .inl ⟨hr, rfl⟩
  · refine .inr ⟨hr, hm, ?_⟩
    rcases receive_cases s with ⟨i, rest, hd, hv⟩ | ⟨why, rest, hd, hv⟩ | ⟨_, _, hv⟩ | ⟨hd, hc, hv⟩ <;>
      rw [hf, hv] at h
    · exact .inl ⟨i, rest, hd, h⟩
    · cases h; exact .inr (.inl ⟨why, rest, hd, rfl⟩)
    · cases h
    · cases h; exact .inr (.inr ⟨hd, hc, rfl⟩)
  · rw [hf] at h; cases h

end Sys2Proof.Machine
end

