-- ==== Sys2Proof/Laws/PerInstr.lean ====
section
/-! SUPPORT. Statements about every command as syntax, one lemma per constructor (LAWS.json "per_instruction"). -/

namespace Sys2Proof.Laws.EncodeIsPacket

/-- The encoding of a well-formed command is one whole packet: as many words as its header word says (30_encoding.md
R63). -/
def Statement (i : Instr) : Prop := WellFormed i = true → Machine.IsPacket (encode i)

theorem init (klen nlen : Nat) (ctr : Word) (key nonce : List Word) : Statement (.init klen nlen ctr key nonce) := by
  intro h
  simp only [WellFormed, fitsUnsigned8, Bool.and_eq_true, decide_eq_true_eq] at h
  obtain ⟨⟨⟨hk, hn⟩, hkl⟩, hnl⟩ := h
  simp only [encode, Machine.IsPacket, plen_header hk hn, payloadWords, List.length_cons, List.length_append,
    BitVec.toNat_ofNat, hkl, hnl]
  rw [Nat.mod_eq_of_lt (by omega), Nat.mod_eq_of_lt (by omega)]
  omega

theorem setw (sec : Section) (idx : Int) (v : Word) : Statement (.setw sec idx v) := fun _ => by
  have h := plen_header (o := .setw) (f1 := sectionCode sec) (by cases sec <;> decide) (signed8_lt idx)
  simp [encode, Machine.IsPacket, h, payloadWords]

theorem incr (delta : Word) : Statement (.incr delta) := fun _ => by
  have h : plen (header .incr 0 0) = 2 := by decide
  simp [encode, Machine.IsPacket, h]

theorem getctr : Statement .getctr := fun _ => by
  have h : plen (header .getctr 0 0) = 1 := by decide
  simp [encode, Machine.IsPacket, h]

theorem getst (sel : Selector) : Statement (.getst sel) := fun _ => by
  have h : plen (header .getst (selectorCode sel) 0) = 1 := by cases sel <;> decide
  simp [encode, Machine.IsPacket, h]

theorem ser (sel : Selector) : Statement (.ser sel) := fun _ => by
  have h : plen (header .ser (selectorCode sel) 0) = 1 := by cases sel <;> decide
  simp [encode, Machine.IsPacket, h]

theorem compute : Statement .compute := fun _ => by
  have h : plen (header .compute 0 0) = 1 := by decide
  simp [encode, Machine.IsPacket, h]

theorem add32 (a b : Word) : Statement (.add32 a b) := fun _ => by
  have h : plen (header .add32 0 0) = 3 := by decide
  simp [encode, Machine.IsPacket, h]

theorem rotl32 (v : Word) (n : Int) : Statement (.rotl32 v n) := fun _ => by
  have h := plen_header (o := .rotl32) (signed8_lt n) (by decide : 0 < 256)
  simp [encode, Machine.IsPacket, h, payloadWords]

theorem xor32 (a b : Word) : Statement (.xor32 a b) := fun _ => by
  have h : plen (header .xor32 0 0) = 3 := by decide
  simp [encode, Machine.IsPacket, h]

theorem qround (a b c d : Word) : Statement (.qround a b c d) := fun _ => by
  have h : plen (header .qround 0 0) = 5 := by decide
  simp [encode, Machine.IsPacket, h]

end Sys2Proof.Laws.EncodeIsPacket
end

