-- ==== Sys2Proof/Machine/Assembler.lean ====
section
/-! DEFINITION. The textual form of commands and responses (30_encoding.md R72), as a printer. -/

namespace Sys2Proof.Machine

/-- `0x` and eight hexadecimal digits (R72). -/
def hexWord (v : Word) : String :=
  "0x" ++ String.ofList ([7, 6, 5, 4, 3, 2, 1, 0].map fun k => Nat.digitChar (v.toNat / 16 ^ k % 16))

/-- A hex byte string, first byte first, two digits per byte (00_scope.md R9). -/
def hexBytes (bs : List Byte) : String :=
  String.ofList (bs.flatMap fun b => [Nat.digitChar (b.toNat / 16), Nat.digitChar (b.toNat % 16)])

/-- The section's name (R72). -/
def sectionName : Section → String
  | .const => "const"
  | .key => "key"
  | .nonce => "nonce"

/-- The selector's name (R72). -/
def selectorName : Selector → String
  | .initial => "initial"
  | .intermediate => "intermediate"
  | .final => "final"

/-- A byte-string operand of INIT, omitted when it is empty (R72, R73). -/
def bytesOperand (name : String) (ws : List Word) (n : Nat) : String :=
  if n = 0 then "" else " " ++ name ++ "=" ++ hexBytes ((bytesOfWords ws).take n)

/-- The mnemonic and the operands in the document's order (R72). -/
def asmText : Instr → String
  | .init klen nlen ctr key nonce =>
    "INIT" ++ bytesOperand "key" key klen ++ bytesOperand "nonce" nonce nlen ++ " ctr=" ++ hexWord ctr
  | .setw sec idx v => "SETW " ++ sectionName sec ++ ", " ++ toString idx ++ ", " ++ hexWord v
  | .incr delta => "INCR " ++ hexWord delta
  | .getctr => "GETCTR"
  | .getst sel => "GETST " ++ selectorName sel
  | .ser sel => "SER " ++ selectorName sel
  | .compute => "COMPUTE"
  | .add32 a b => "ADD32 " ++ hexWord a ++ ", " ++ hexWord b
  | .rotl32 v n => "ROTL32 " ++ hexWord v ++ ", " ++ toString n
  | .xor32 a b => "XOR32 " ++ hexWord a ++ ", " ++ hexWord b
  | .qround a b c d => "QROUND " ++ hexWord a ++ ", " ++ hexWord b ++ ", " ++ hexWord c ++ ", " ++ hexWord d

/-- The error's name (R66). -/
def ErrorCode.name : ErrorCode → String
  | .indexError => "IndexError"
  | .rangeError => "RangeError"
  | .lengthError => "LengthError"
  | .counterOverflow => "CounterOverflow"
  | .illegalCommand => "IllegalCommand"

/-- A response as `-> OK w0 w1 ...` or `-> <ErrorName>` (R72). Words that are no response of the engine have no text
(93_implementation_defined.md U6). -/
def responseText : List Word → Option String
  | [] => none
  | t :: payload =>
    match statusField t, ErrorCode.ofCode (statusField t) with
    | 0, _ => some (payload.foldl (fun acc w => acc ++ " " ++ hexWord w) "-> OK")
    | _, some e => some ("-> " ++ e.name)
    | _, none => none

end Sys2Proof.Machine
end

