-- ==== Sys2Proof/Tests/Slice0.lean ====
section
/-! SUPPORT. The model's own tests. Expected values are the spec's (95_test_vectors.md, the Example lines of the rules)
or hand calculation from a rule; each test names its source. Then a witness for the hypotheses of every statement. -/

namespace Sys2Proof.Tests

open Sys2Proof.Machine Sys2Proof.Spec

/-! ### Helpers -/

/-- The response to one packet sent to `s`, if the step answers. -/
def answer (s : State) (packet : List Word) : Option (List Word) :=
  match step (s.hostSend packet) with
  | .next t => some t.rsp
  | .fault _ => none
  | .refused _ => none

/-- The state after one packet. -/
def after (s : State) (packet : List Word) : State :=
  match step (s.hostSend packet) with
  | .next t => t
  | .fault _ => s
  | .refused _ => s

/-- The engine with this counter (INIT ctr=...). -/
def withCounter (c : Word) : State := State.reset.writeS 12 c

/-- The key and nonce words of the block fixture (V1.4). -/
def fixtureKey : List Word :=
  [0x03020100, 0x07060504, 0x0B0A0908, 0x0F0E0D0C, 0x13121110, 0x17161514, 0x1B1A1918, 0x1F1E1D1C]
def fixtureNonce : List Word := [0x09000000, 0x4A000000, 0x00000000]

/-- S of the block fixture (V1.4). -/
def fixtureS : Block :=
  #v[0x61707865, 0x3320646E, 0x79622D32, 0x6B206574, 0x03020100, 0x07060504, 0x0B0A0908, 0x0F0E0D0C,
    0x13121110, 0x17161514, 0x1B1A1918, 0x1F1E1D1C, 0x00000001, 0x09000000, 0x4A000000, 0x00000000]

/-! ### WellFormed refuses what has no encoding: one ill-formed term per check -/

theorem test_wf_key_length_field : WellFormed (.init 256 0 0 (List.replicate 64 0) []) = false := by decide
theorem test_wf_nonce_length_field : WellFormed (.init 0 256 0 [] (List.replicate 64 0)) = false := by decide
theorem test_wf_key_word_count : WellFormed (.init 5 0 0 [1] []) = false := by decide
theorem test_wf_nonce_word_count : WellFormed (.init 0 4 0 [] [1, 2]) = false := by decide
theorem test_wf_index_above : WellFormed (.setw .key 128 0) = false := by decide
theorem test_wf_index_below : WellFormed (.setw .key (-129) 0) = false := by decide
theorem test_wf_amount_above : WellFormed (.rotl32 0 128) = false := by decide
theorem test_wf_amount_below : WellFormed (.rotl32 0 (-129)) = false := by decide

/-! ### Words written out from the encodings of R61 to R68 -/

/-- V3.1: klen 6 and nlen 0: one header, counter, two key words (R63, R64). -/
theorem test_decode_init : decode [0x00000601, 7, 1, 2, 9] = .command (.init 6 0 7 [1, 2] []) [9] := by decide
/-- R92, Example. -/
theorem test_decode_setw : decode [0x00020202, 0xCCCC0002] = .command (.setw .nonce 2 0xCCCC0002) [] := by decide
/-- V3.2: SETW nonce, -128. -/
theorem test_decode_setw_negative : decode [0x00800202, 1] = .command (.setw .nonce (-128) 1) [] := by decide
theorem test_decode_incr : decode [0x00000003, 1] = .command (.incr 1) [] := by decide
theorem test_decode_getctr : decode [0x00000004] = .command .getctr [] := by decide
theorem test_decode_getst : decode [0x00000105] = .command (.getst .intermediate) [] := by decide
theorem test_decode_ser : decode [0x00000206] = .command (.ser .final) [] := by decide
theorem test_decode_compute : decode [0x00000007, 5] = .command .compute [5] := by decide
theorem test_decode_add32 : decode [0x00000010, 1, 2] = .command (.add32 1 2) [] := by decide
/-- V2.2: n = -1. -/
theorem test_decode_rotl32 : decode [0x0000FF11, 0x12345678] = .command (.rotl32 0x12345678 (-1)) [] := by decide
theorem test_decode_xor32 : decode [0x00000012, 1, 2] = .command (.xor32 1 2) [] := by decide
theorem test_decode_qround : decode [0x00000013, 1, 2, 3, 4] = .command (.qround 1 2 3 4) [] := by decide
/-- V3.5 and R69: each case by name. -/
theorem test_illegal_opcode : decode [0x00000008, 3] = .illegal .undefinedOpcode [3] := by decide
theorem test_illegal_reserved : decode [0x00000110, 1, 2, 3] = .illegal .reservedField [3] := by decide
theorem test_illegal_section : decode [0x00000302, 1] = .illegal .undefinedSection [] := by decide
theorem test_illegal_selector : decode [0x00000306] = .illegal .undefinedSelector [] := by decide
theorem test_incomplete : decode [0x00000010, 1] = .incomplete := by decide
/-- The opcode table's numbering: the second word counts on from bit 32. -/
theorem test_table_word : decodeTableWord 64 0x00000005_00000003 = some (.incr 5) := by decide
theorem test_table_word_refused : decodeTableWord 32 0x00000305 = none := by decide
/-- R46: a word goes least significant byte first. -/
theorem test_decode_bytes : decodeBytes [0x03, 0, 0, 0, 0xFF, 0, 0, 0x80] = .command (.incr 0x800000FF) [] := by decide

/-! ### One step per command -/

/-- V2.1: 0xFFFFFFFF + 1 wraps to 0. -/
theorem test_add32_wraps : answer State.reset [0x10, 0xFFFFFFFF, 1] = some [0x100, 0] := by decide
/-- V2.1. -/
theorem test_add32_plain : answer State.reset [0x10, 0x12345678, 0x9ABCDEF0] = some [0x100, 0xACF13568] := by decide
/-- V2.2: the top bit goes to bit 0. -/
theorem test_rotl32_wraps : answer State.reset [0x111, 0x80000000] = some [0x100, 1] := by decide
/-- V2.2: 32 is an error, not the identity. -/
theorem test_rotl32_range : answer State.reset [0x2011, 0x12345678] = some [2] := by decide
/-- V2.3. -/
theorem test_xor32 : answer State.reset [0x12, 0x01234567, 0x7998BFDA] = some [0x100, 0x78BBFABD] := by decide
/-- V2.4, third line. -/
theorem test_qround : answer State.reset [0x13, 0x11111111, 0x01020304, 0x9B8D6F43, 0x01234567] =
    some [0x400, 0xEA2A92F4, 0xCB1CF8CE, 0x4581472E, 0x5881C4BB] := by decide +kernel
/-- V3.1: the full INIT. -/
theorem test_init_full : (after State.reset ([0x000C2001, 1] ++ fixtureKey ++ fixtureNonce)).S = fixtureS := by
  decide +kernel
/-- V3.1: klen 33 is a LengthError. -/
theorem test_init_length : answer State.reset (0x000C2101 :: List.replicate 13 7) = some [3] := by decide +kernel
/-- V3.2: SETW key, 8 does not reach the counter. -/
theorem test_setw_bound : answer State.reset [0x00080102, 1] = some [1] := by decide
/-- V3.2: S[15]. -/
theorem test_setw_nonce : (after State.reset [0x00020202, 0xCCCC0002]).S[15] = 0xCCCC0002 := by decide
/-- V3.3: the test is on magnitudes. -/
theorem test_incr_magnitudes : (after (withCounter 0x7FFFFFFF) [3, 0x80000000]).S[12] = 0xFFFFFFFF := by decide
/-- V3.3, V1.7: CounterOverflow, the counter stays. -/
theorem test_incr_overflow : answer (withCounter 0xFFFFFFFF) [3, 1] = some [4] := by decide
/-- V1.7. -/
theorem test_getctr : answer (withCounter 0xFFFFFFFF) [4] = some [0x100, 0xFFFFFFFF] := by decide
/-- V3.4. -/
theorem test_getst_reset : answer State.reset [5] =
    some [0x1000, 0x61707865, 0x3320646E, 0x79622D32, 0x6B206574, 0, 0, 0, 0, 0, 0, 0, 0, 0, 0, 0, 0] := by
  decide +kernel
/-- V3.4: as bytes, "expand 32-byte k". -/
theorem test_ser_bytes : ((answer State.reset [6]).map fun r => (bytesOfWords (r.drop 1)).take 16) =
    some [0x65, 0x78, 0x70, 0x61, 0x6E, 0x64, 0x20, 0x33, 0x32, 0x2D, 0x62, 0x79, 0x74, 0x65, 0x20, 0x6B] := by
  decide +kernel
/-- V4.2: after the first column round of the block fixture. -/
theorem test_column_round : columnRound fixtureS =
    #v[0xABBAA25C, 0x1EFA51EA, 0x7354FBDF, 0x83D2DC69, 0x3A465196, 0x1C7E64F6, 0xB12FB628, 0xF05B6976,
      0x6B3CA454, 0x08EB14B1, 0xBF8A9AC9, 0xE444DF3B, 0xDEC62ED2, 0x8862CC77, 0x6E35B345, 0x52A647F1] := by
  decide +kernel
/-- V1.4: Final of the block fixture. -/
theorem test_compute_fixture : (after { State.reset with S := fixtureS } [7]).F =
    some #v[0xE4E7F110, 0x15593BD1, 0x1FDD0F50, 0xC47120A3, 0xC7F4D1C7, 0x0368C033, 0x9AAA2204, 0x4E6CD4C3,
      0x466482D2, 0x09AA9F07, 0x05D7C214, 0xA2028BD9, 0xD19C12B5, 0xB94E16DE, 0xE883D0CB, 0x4E3C50A2] := by
  decide +kernel
/-- V3.5: an illegal header is answered, and the word after it is the next header. -/
theorem test_illegal_answer : answer State.reset [0x01000007] = some [5] := by decide

/-! ### Around a command -/

/-- The host's fetch word is the very next step (log 1). -/
theorem test_fetch_word : (match step (State.reset.withFetchWord 32 0x11) with
    | .next t => t.rsp | .fault _ => [] | .refused _ => []) = [0x100, 0] := by decide
/-- R32, U10: a partial packet is held, and then the engine waits. -/
theorem test_partial_held : (after State.reset [0x10, 1]).held = [0x10, 1] := by decide
theorem test_partial_waits : step (after State.reset [0x10, 1]) = .fault .awaitingPacket := by rfl
/-- R187: reset forgets the partial packet; the next word is a header. -/
theorem test_reset_forgets : answer (after (after State.reset [0x10, 1]).hostReset []) [0x04] = some [0x100, 0] := by
  decide
/-- R185: reset drops the responses not taken. -/
theorem test_reset_drops : (after (after State.reset [0x04]).hostReset []).rsp = [] := by decide
/-- U10: no room, no step. -/
theorem test_no_room : step ((State.reset.hostSend [0x04]).hostRoom false) = .fault .responseNotTaken := by rfl

/-! ### Host sequences and text -/

/-- V6.1, second part: eight zero bytes from sub_counter 60 cross a block boundary. -/
theorem test_cipher_boundary :
    (match cipherNew (bytesOfWords fixtureKey) (bytesOfWords [0, 0x4A000000, 0]) 1 60 State.reset with
      | (.ok c, _) =>
        let t := c.transform [0, 0, 0, 0, 0, 0, 0, 0]
        decide (t.output = [0xF0, 0x7D, 0x41, 0xB7, 0x69, 0xA6, 0x74, 0x9F]) && decide (t.cipher.sub = 4) &&
          decide (t.cipher.engine.S[12] = 2)
      | (.error _, _) => false) = true := by decide +kernel
/-- V6.2: with sub_counter 15 the first call returns the last word of the block and refills. -/
theorem test_random_refill :
    (match randomNew (some (List.replicate 32 0)) (some (List.replicate 12 0)) 0 15
        ⟨Vector.replicate 32 1, Vector.replicate 12 1⟩ State.reset with
      | (.ok r, _) => decide (r.rand.2.widx = 0) && decide (r.rand.2.engine.S[12] = 1) &&
          (match r.rand.1 with | .ok w => decide (w = 0x8665EEB2) | .error _ => false)
      | (.error _, _) => false) = true := by decide +kernel
/-- R152, V6.3: at the top of the counter the sixteenth word is not returned. -/
theorem test_random_overflow :
    (RandomSeq.rand ⟨withCounter 0xFFFFFFFF, 15, []⟩).1 = .error (.raised .counterOverflow) := by rfl
/-- R72: P4 line 1. -/
theorem test_asm_setw : asmText (.setw .key 0 0x03020100) = "SETW key, 0, 0x03020100" := by decide +kernel
/-- R72. -/
theorem test_response_text : responseText [0x00000100, 0x1A2B3C09] = some "-> OK 0x1a2b3c09" := by decide +kernel

/-! ### Witnesses: concrete states and operands that meet the hypotheses of each statement -/

/-- Where a whole packet with header `h` and payload `p` stands at the head: the hypotheses of RunsAs and
AnswersIllegal, met from reset. -/
theorem packet_stands (h : Word) (p : List Word) :
    (State.reset.hostSend (h :: p)).Ready ∧
      (State.reset.hostSend (h :: p)).held ++ (State.reset.hostSend (h :: p)).cmd = h :: (p ++ []) :=
  ⟨⟨rfl, rfl⟩, by simp [State.hostSend, State.reset]⟩

theorem witness_DecodeOfEncode : WellFormed (.init 255 255 0 (List.replicate 64 1) (List.replicate 64 2)) = true := by
  decide
theorem witness_DecodeOfEncode_index : WellFormed (.setw .key (-128) 0) = true := by decide
theorem witness_EncodeOfDecode : decode [0x00007F11, 1, 2] = .command (.rotl32 1 127) [2] := by decide
theorem witness_IllegalHeadersAnswered : IllegalHeader 0x00000302 ∧ plen 0x00000302 = 2 := by
  refine ⟨?_, by decide⟩; unfold IllegalHeader; decide
theorem witness_IllegalHeadersAnswered_legal : ¬ IllegalHeader 0x00FFFF01 := by unfold IllegalHeader; decide
theorem witness_OpcodeTableExactAndDisjoint : ∃ r ∈ opcodeTable, (0x00FF0102 : Word) &&& r.mask = r.pattern := by
  decide
theorem witness_StepRunsDecodedCommand : WellFormed (.incr 1) = true ∧
    (State.reset.hostSend [0x00000003, 1]).Ready ∧
    (State.reset.hostSend [0x00000003, 1]).held ++ (State.reset.hostSend [0x00000003, 1]).cmd = encode (.incr 1) ++ [] :=
  ⟨rfl, ⟨rfl, rfl⟩, by decide⟩
/-- With no word held, and with the header already held. -/
theorem witness_SplitPacketRunsTheSame : WellFormed (.add32 1 2) = true ∧ encode (.add32 1 2) = [0x10, 1] ++ [2] ∧
    [(2 : Word)] ≠ [] ∧
    ∀ s ∈ [State.reset.hostSend [0x10, 1], { State.reset with held := [0x10], cmd := [1] }],
      s.Ready ∧ s.held ++ s.cmd = [0x10, 1] ∧ s.cmd ≠ [] := by
  simp only [State.Ready]; decide
theorem witness_PacketLengthFromHeader : (State.reset.hostSend [0x00080102, 1]).Ready ∧
    (State.reset.hostSend [0x00080102, 1]).held ++ (State.reset.hostSend [0x00080102, 1]).cmd = 0x00080102 :: ([1] ++ []) ∧
    [(1 : Word)].length + 1 = plen 0x00080102 := ⟨⟨rfl, rfl⟩, rfl, by decide⟩
theorem witness_Add32AnswersSum : (0x01000010 : Word).toNat % 256 = 0x10 ∧ (0x01000010 : Word) ≠ 0x10 ∧
    plen 0x01000010 = 3 := by decide
theorem witness_Rotl32RotatesOrRaises_encoding : (-128 : Int) ≤ -128 ∧ (127 : Int) < 128 := by decide
theorem witness_Rotl32RotatesOrRaises_legal : (31 : Nat) < 32 := by decide
theorem witness_Rotl32RotatesOrRaises_raises : (-1 : Int) < 0 ∧ (32 : Int) ≤ 32 := by decide
theorem witness_Rotl32RotatesOrRaises_illegal : (0x00010011 : Word).toNat % 256 = 0x11 ∧
    (0x00010011 : Word).toNat / 65536 ≠ 0 ∧ plen 0x00010011 = 2 := by decide
theorem witness_Xor32AnswersXor : (0x00000112 : Word).toNat % 256 = 0x12 ∧ (0x00000112 : Word) ≠ 0x12 ∧
    plen 0x00000112 = 3 := by decide
theorem witness_QroundAnswersQuarterRound : (0x00010013 : Word).toNat % 256 = 0x13 ∧ (0x00010013 : Word) ≠ 0x13 ∧
    plen 0x00010013 = 5 := by decide
theorem witness_Rotl32Laws : (0 : Nat) < 1 ∧ (31 : Nat) < 32 ∧ (1 : Nat) ≤ 31 ∧ (32 : Int) ≤ 32 ∧ (-1 : Int) < 0 := by
  decide
theorem witness_Xor32Laws : (31 : Nat) < 32 ∧ (0 : Nat) < 32 := by decide
theorem witness_QuarterRoundAtIndices : (0 : Fin 16) ≠ 5 ∧ (0 : Fin 16) ≠ 10 ∧ (0 : Fin 16) ≠ 15 ∧ (5 : Fin 16) ≠ 10 ∧
    (5 : Fin 16) ≠ 15 ∧ (10 : Fin 16) ≠ 15 ∧ ∃ m : Fin 16, m ≠ 0 ∧ m ≠ 5 ∧ m ≠ 10 ∧ m ≠ 15 := by decide
theorem witness_ComputePublishesBlock : (0x00000107 : Word).toNat % 256 = 0x07 ∧ (0x00000107 : Word) ≠ 7 ∧
    plen 0x00000107 = 1 := by decide
theorem witness_InitConstructsOrRaises_encoding : (List.replicate 64 (0 : Word)).length = (255 + 3) / 4 := by decide
theorem witness_InitConstructsOrRaises_legal : 32 % 4 = 0 ∧ 32 / 4 ≤ 8 ∧ 12 % 4 = 0 ∧ 12 / 4 ≤ 3 ∧
    (List.replicate 8 (1 : Word)).length = (32 + 3) / 4 ∧ (List.replicate 3 (1 : Word)).length = (12 + 3) / 4 ∧
    ([] : List Word).length = (0 + 3) / 4 := by decide
theorem witness_InitConstructsOrRaises_raises : (33 % 4 ≠ 0 ∧ 8 < 36 / 4) ∧ (6 % 4 ≠ 0 ∧ 3 < 16 / 4) := by decide
theorem witness_InitConstructsOrRaises_illegal : (0x01000001 : Word).toNat % 256 = 1 ∧
    (0x01000001 : Word).toNat / 16777216 ≠ 0 ∧ plen 0x01000001 = 2 := by decide
theorem witness_SetwWritesOneWordOrRaises_encoding :
    (Section.nonce, 2) ∈ [(Section.const, 0), (Section.key, 1), (Section.nonce, 2)] ∧ (-128 : Int) ≤ -128 := by decide
theorem witness_SetwWritesOneWordOrRaises_legal : (3 < (sectionRange .const).2 ∧ 7 < (sectionRange .key).2) ∧
    2 < (sectionRange .nonce).2 ∧ 0 < (sectionRange .const).2 := by decide
theorem witness_SetwWritesOneWordOrRaises_raises : (-1 : Int) < 0 ∧ ((sectionRange .key).2 : Int) ≤ 8 := by decide
theorem witness_SetwWritesOneWordOrRaises_illegal : (0x00000302 : Word).toNat % 256 = 2 ∧
    3 ≤ (0x00000302 : Word).toNat / 256 % 256 ∧ plen 0x00000302 = 2 := by decide
theorem witness_IncrAddsOrOverflows_adds :
    (withCounter 0xFFFFFFFE).S[12].toNat + (1 : Word).toNat ≤ 0xFFFFFFFF := by decide
theorem witness_IncrAddsOrOverflows_overflows :
    0xFFFFFFFF < (withCounter 0xFFFFFFFF).S[12].toNat + (1 : Word).toNat := by decide
theorem witness_IncrAddsOrOverflows_illegal : (0x00000103 : Word).toNat % 256 = 3 ∧ (0x00000103 : Word) ≠ 3 ∧
    plen 0x00000103 = 2 := by decide
theorem witness_GetctrAnswersCounter : (0x00010004 : Word).toNat % 256 = 4 ∧ (0x00010004 : Word) ≠ 4 ∧
    plen 0x00010004 = 1 := by decide
theorem witness_GetstAnswersArray_present : (State.reset.publish fixtureS fixtureS).W = some fixtureS ∧
    (State.reset.publish fixtureS fixtureS).F = some fixtureS := ⟨rfl, rfl⟩
theorem witness_GetstAnswersArray_absent : State.reset.W = none ∧ State.reset.F = none := ⟨rfl, rfl⟩
theorem witness_GetstAnswersArray_illegal : (0x00000305 : Word).toNat % 256 = 5 ∧
    3 ≤ (0x00000305 : Word).toNat / 256 % 256 ∧ plen 0x00000305 = 1 := by decide
theorem witness_SerAnswersLittleEndianBytes_illegal : (0x00010006 : Word).toNat % 256 = 6 ∧
    (0x00010006 : Word).toNat / 65536 ≠ 0 ∧ plen 0x00010006 = 1 := by decide
theorem witness_SerAnswersLittleEndianBytes_present : State.reset.S = resetBlock ∧
    (State.reset.publish fixtureS fixtureS).W = some fixtureS ∧
    (State.reset.publish fixtureS fixtureS).F = some fixtureS := ⟨rfl, rfl, rfl⟩
theorem witness_SerAnswersLittleEndianBytes_absent : State.reset.W = none ∧ State.reset.F = none := ⟨rfl, rfl⟩
theorem witness_AbsentReadDrawsFreeWords : State.reset.selected .final = none := rfl
theorem witness_FailedCommandChangesNothing :
    (State.reset.hostSend [0x00080102, 1]).Ready ∧ [(1 : Word)].length + 1 = plen 0x00080102 ∧
    (∃ t, step (State.reset.hostSend [0x00080102, 1]) = .next t ∧ t.rsp = State.reset.rsp ++ 1 :: []) ∧
    statusField 1 ≠ 0 := ⟨⟨rfl, rfl⟩, by decide, ⟨_, rfl, by decide⟩, by decide⟩
theorem witness_StatusOfEachCommand : ∃ t, exec (.incr 1) (withCounter 0xFFFFFFFF) = .next t ∧
    t.rsp = (withCounter 0xFFFFFFFF).rsp ++ 4 :: [] := ⟨_, rfl, by decide⟩
theorem witness_EarlierResponsesChangeNoCommand : ∃ t, exec .getctr State.reset = .next t := ⟨_, rfl⟩
theorem witness_ResponsesAnswerInOrder : State.reset.Ready ∧ State.reset.held = [] ∧ State.reset.cmd = [] ∧
    ∀ p ∈ [[(4 : Word)], [0x10, 1, 2], [0x08]], IsPacket p := by
  refine ⟨⟨rfl, rfl⟩, rfl, rfl, ?_⟩
  intro p hp
  simp only [List.mem_cons, List.not_mem_nil, or_false] at hp
  rcases hp with rfl | rfl | rfl <;> simp only [IsPacket] <;> decide
theorem witness_WordsOfSWrittenAsMapped : ∃ t, exec (.setw .key 0 5) State.reset = .next t ∧
    t.S[(4 : Fin 16)] ≠ State.reset.S[(4 : Fin 16)] := ⟨_, rfl, by decide⟩
theorem witness_WordsOfSWrittenAsMapped_counter : ∃ t, exec (.incr 1) State.reset = .next t ∧
    t.S[(12 : Fin 16)] ≠ State.reset.S[(12 : Fin 16)] := ⟨_, rfl, by decide⟩
theorem witness_CounterNeverDecreases : ∃ t, exec (.incr 0xFFFFFFFF) State.reset = .next t ∧
    t.S[12] = 0xFFFFFFFF := ⟨_, rfl, by decide⟩
theorem witness_BlocksWrittenOnlyByComputeAndInit : LeavesBlocks (.incr 1) ∧
    (∃ t, exec (.incr 1) State.reset = .next t) ∧ (∃ t, exec (.init 1 0 0 [0] []) State.reset = .next t) ∧
    ∃ t, exec .compute State.reset = .next t := ⟨trivial, ⟨_, rfl⟩, ⟨_, rfl⟩, _, rfl⟩
theorem witness_FramesOfAllCommands : WritesNoS .getctr ∧ Instr.getctr ≠ .compute ∧
    ∃ t, exec .getctr State.reset = .next t := ⟨trivial, by decide, _, rfl⟩
theorem witness_BlockCurrentUntilStateWritten :
    (State.reset.publish (rounds resetBlock) (addBlocks resetBlock (rounds resetBlock))).Fresh ∧
    WritesNoS (.ser .final) ∧ (∃ t, exec (.setw .key 0 5) State.reset = .next t) ∧
    ∃ t, exec (.incr 1) State.reset = .next t :=
  ⟨⟨_, _, rfl, rfl, rfl, fun i => by simp [addBlocks, State.publish, State.reset]⟩, trivial, ⟨_, rfl⟩, _, rfl⟩
theorem witness_ConstantsKeptUnlessSetwConst : State.reset.ConstantsIntact ∧ LeavesConstants (.setw .key 0 5) ∧
    (∃ t, exec (.setw .key 0 5) State.reset = .next t) ∧
    (32 % 4 = 0 ∧ 32 ≤ 32 ∧ 12 % 4 = 0 ∧ 12 ≤ 12) ∧
    ∃ t, exec (.init 32 12 0 fixtureKey fixtureNonce) State.reset = .next t :=
  ⟨⟨rfl, rfl, rfl, rfl⟩, by simp [LeavesConstants], ⟨_, rfl⟩, by decide, _, rfl⟩
theorem witness_StepKeepsInvariant : State.reset.Inv ∧ ∃ t, step (State.reset.hostSend [0x10, 1]) = .next t ∧
    t.held ≠ [] := by
  refine ⟨⟨.inl ⟨rfl, rfl⟩, ?_⟩, _, rfl, by decide⟩
  intro h t hh
  exact nomatch hh
theorem witness_StepKeepsInvariant_sent : (State.reset.hostSend [0x10, 1]).Inv :=
  ⟨.inl ⟨rfl, rfl⟩, fun _ _ hh => nomatch hh⟩
theorem witness_ResetEventFromAnyState : State.reset.hostReset.rst = true := rfl
theorem witness_EmptyInitGivesResetArrays : (11 : Fin 16) ≠ 12 ∧ (13 : Fin 16) ≠ 12 := by decide
theorem witness_TransactionIsExec : State.reset.idle = true ∧ WellFormed (.incr 1) = true ∧
    ∃ t, exec (.incr 1) State.reset = .next t := ⟨rfl, rfl, _, rfl⟩
theorem witness_KeystreamBlockIsSerialisedSum : State.reset.idle = true := rfl
theorem witness_NextBlockAdvancesOrOverflows : ((withCounter 0xFFFFFFFE).idle = true ∧
    (withCounter 0xFFFFFFFE).S[12].toNat < 0xFFFFFFFF) ∧
    (withCounter 0xFFFFFFFF).idle = true ∧ (withCounter 0xFFFFFFFF).S[12] = 0xFFFFFFFF := by
  refine ⟨⟨rfl, by decide⟩, rfl, by decide⟩
theorem witness_CipherRoundTrip : ∃ c u, cipherNew (bytesOfWords fixtureKey) [] 5 63 State.reset = (.ok c, u) ∧
    (c.transform [1, 2]).failed = none := by
  have h : (match cipherNew (bytesOfWords fixtureKey) [] 5 63 State.reset with
      | (.ok c, _) => decide ((c.transform [1, 2]).failed = none)
      | (.error _, _) => false) = true := by decide +kernel
  generalize cipherNew (bytesOfWords fixtureKey) [] 5 63 State.reset = r at h ⊢
  obtain ⟨(e | c), u⟩ := r
  · simp at h
  · exact ⟨c, u, rfl, by simpa using h⟩
theorem witness_TransformContinues : (Cipher.transform ⟨State.reset, 62, []⟩ [1, 2]).failed = none := by decide
theorem witness_TransformLengthAndCursor : (Cipher.transform ⟨State.reset, 63, []⟩ [1]).failed = none ∧
    (Cipher.transform ⟨withCounter 0xFFFFFFFF, 63, []⟩ [1, 2]).failed ≠ none ∧ (64 : Nat) ≤ 64 := by
  refine ⟨by decide, by decide +kernel, by decide⟩
theorem witness_OverflowedCipherKeepsOldBlock : (withCounter 0xFFFFFFFF).idle = true ∧
    (withCounter 0xFFFFFFFF).S[12] = 0xFFFFFFFF := ⟨rfl, by decide⟩
theorem witness_SetSubBoundsChecked : ((0 : Int) ≤ 63 ∧ (63 : Int) < 64) ∧ ((-1 : Int) < 0 ∧ (64 : Int) ≤ 64) := by
  decide
theorem witness_RandReturnsWordOrOverflows : ((RandomSeq.mk State.reset 14 []).widx < 15) ∧
    ((RandomSeq.mk (withCounter 0xFFFFFFFE) 15 []).widx = 15 ∧ (withCounter 0xFFFFFFFE).idle = true ∧
      (withCounter 0xFFFFFFFE).S[12].toNat < 0xFFFFFFFF) ∧
    (withCounter 0xFFFFFFFF).idle = true ∧ (withCounter 0xFFFFFFFF).S[12] = 0xFFFFFFFF := by
  refine ⟨by decide, ⟨rfl, rfl, by decide⟩, rfl, by decide⟩
theorem witness_StuckExactlyWhenWaiting_waiting : step State.reset = .fault .awaitingPacket := rfl
theorem witness_StuckExactlyWhenWaiting_noRoom :
    step ((State.reset.hostSend [0x04]).hostRoom false) = .fault .responseNotTaken := rfl

end Sys2Proof.Tests
end

/-! ## Proofs for 00_scope.md: a step is a whole command, and every command answers once -/

/-! ### Decoding an encoded command -/

namespace Sys2Proof

theorem sectionOf_sectionCode (sec : Section) : sectionOf (BitVec.ofNat 8 (sectionCode sec)) = some sec := by
  cases sec <;> rfl

theorem selectorOf_selectorCode (sel : Selector) : selectorOf (BitVec.ofNat 8 (selectorCode sel)) = some sel := by
  cases sel <;> rfl

theorem sectionCode_lt (sec : Section) : sectionCode sec < 256 := by cases sec <;> decide

theorem selectorCode_lt (sel : Selector) : selectorCode sel < 256 := by cases sel <;> decide

theorem encode_isPacket (i : Instr) (hw : WellFormed i = true) : Machine.IsPacket (encode i) := by
  cases i with
  | init klen nlen ctr key nonce => exact Laws.EncodeIsPacket.init klen nlen ctr key nonce hw
  | setw sec idx v => exact Laws.EncodeIsPacket.setw sec idx v hw
  | incr delta => exact Laws.EncodeIsPacket.incr delta hw
  | getctr => exact Laws.EncodeIsPacket.getctr hw
  | getst sel => exact Laws.EncodeIsPacket.getst sel hw
  | ser sel => exact Laws.EncodeIsPacket.ser sel hw
  | compute => exact Laws.EncodeIsPacket.compute hw
  | add32 a b => exact Laws.EncodeIsPacket.add32 a b hw
  | rotl32 v n => exact Laws.EncodeIsPacket.rotl32 v n hw
  | xor32 a b => exact Laws.EncodeIsPacket.xor32 a b hw
  | qround a b c d => exact Laws.EncodeIsPacket.qround a b c d hw

/-- The operands of INIT are cut out of the payload by the header's two lengths (R64, R90). -/
theorem assembleInit_header {klen nlen : Nat} {ctr : Word} {key nonce : List Word}
    (hk : klen < 256) (hn : nlen < 256) (hkey : key.length = ceilWords klen) (hnonce : nonce.length = ceilWords nlen) :
    assembleInit (header .init klen nlen) (ctr :: (key ++ nonce)) = .init klen nlen ctr key nonce := by
  have hlen1 : (f1Field (header .init klen nlen)).toNat = klen := by
    rw [f1Field_header hk hn]; exact Nat.mod_eq_of_lt hk
  have hlen2 : (f2Field (header .init klen nlen)).toNat = nlen := by
    rw [f2Field_header hk hn]; exact Nat.mod_eq_of_lt hn
  simp [assembleInit, hlen1, hlen2, ← hkey, ← hnonce, payloadWord, Nat.add_comm 1]

theorem decodePacket_encode {i : Instr} {h : Word} {p : List Word} (hw : WellFormed i = true)
    (he : encode i = h :: p) : decodePacket h p = .ok i := by
  cases i with
  | init klen nlen ctr key nonce =>
    cases he
    simp only [WellFormed, fitsUnsigned8, Bool.and_eq_true, decide_eq_true_eq] at hw
    obtain ⟨⟨⟨hk, hn⟩, hkey⟩, hnonce⟩ := hw
    simp [decodePacket_header hk hn, assemble, reservedFieldSet_header hk hn (o := .init) nofun nofun,
      assembleInit_header hk hn hkey hnonce]
  | setw sec idx v =>
    cases he
    have h1 := sectionCode_lt sec
    have h2 := signed8_lt idx
    simp [decodePacket_header h1 h2, assemble, reservedFieldSet_header h1 h2 (o := .setw) nofun nofun,
      f1Field_header h1 h2, f2Field_header h1 h2, sectionOf_sectionCode, toInt_signed8 hw, payloadWord]
  | rotl32 v n =>
    cases he
    have h1 := signed8_lt n
    have h2 : 0 < 256 := by decide
    simp [decodePacket_header h1 h2, assemble, reservedFieldSet_header h1 h2 (o := .rotl32) nofun (fun _ => rfl),
      f1Field_header h1 h2, toInt_signed8 hw, payloadWord]
  | getst sel => cases he; cases sel <;> rfl
  | ser sel => cases he; cases sel <;> rfl
  | incr _ | getctr | compute | add32 _ _ | xor32 _ _ | qround _ _ _ _ => cases he; rfl

/-- The encoder's packets are read back, whatever follows them (R61 to R64, R71). -/
theorem decode_encode_append {i : Instr} (hw : WellFormed i = true) (rest : List Word) :
    decode (encode i ++ rest) = .command i rest := by
  have hp := encode_isPacket i hw
  cases he : encode i with
  | nil => rw [he] at hp; exact hp.elim
  | cons h p =>
    rw [he] at hp
    rw [List.cons_append, decode_packet hp, decodePacket_encode hw he]

/-! ### Words and their bytes -/

/-- A word is given back by its four little-endian bytes (R44, R45). -/
theorem leWord_extractLsb' (v : Word) :
    leWord (v.extractLsb' 0 8) (v.extractLsb' 8 8) (v.extractLsb' 16 8) (v.extractLsb' 24 8) = v := by
  have := v.isLt
  apply BitVec.eq_of_toNat_eq
  simp only [leWord, BitVec.toNat_ofNat, BitVec.extractLsb'_toNat, Nat.shiftRight_eq_div_pow]
  omega

theorem wordsOfBytes_bytesOfWords (ws : List Word) : wordsOfBytes (bytesOfWords ws) = ws := by
  induction ws with
  | nil => rfl
  | cons v ws ih =>
    calc wordsOfBytes (bytesOfWords (v :: ws))
        = leWord (v.extractLsb' 0 8) (v.extractLsb' 8 8) (v.extractLsb' 16 8) (v.extractLsb' 24 8)
            :: wordsOfBytes (bytesOfWords ws) := rfl
      _ = v :: ws := by rw [leWord_extractLsb', ih]

end Sys2Proof

/-! ### What every command does: a response packet, and no change of the command stream or the inputs -/

namespace Sys2Proof.Machine

theorem wordsOfBytes_serialize (b : Block) : wordsOfBytes (serialize b) = b.toList :=
  wordsOfBytes_bytesOfWords b.toList

/-- The same partial packet, command stream and inputs: what no command touches (R49). -/
structure State.SameInputs (s t : State) : Prop where
  held : t.held = s.held
  cmd : t.cmd = s.cmd
  room : t.room = s.room
  rst : t.rst = s.rst

theorem State.SameInputs.refl (s : State) : s.SameInputs s := ⟨rfl, rfl, rfl, rfl⟩

theorem State.SameInputs.emit {s u : State} (h : s.SameInputs u) (p : List Word) : s.SameInputs (u.emit p) :=
  ⟨h.held, h.cmd, h.room, h.rst⟩

/-- How a command ends: with the OK response to a payload of an allowed length, from a state `u` that differs from `s` in
S, W, F and draws at most, or with an error and no other change (R65, R166). -/
inductive State.Completes (s : State) : State → Prop
  | answered {u : State} {payload : List Word} (hin : s.SameInputs u) (hrsp : u.rsp = s.rsp)
      (hlen : payload.length ∈ [0, 1, 4, 16]) : s.Completes (u.answered payload)
  | failed (e : ErrorCode) : s.Completes (s.failed e)

theorem completes_writeS (s : State) (k : Nat) (v : Word) : s.Completes ((s.writeS k v).answered []) :=
  .answered ⟨rfl, rfl, rfl, rfl⟩ rfl (by decide)

theorem completes_readArray (sel : Selector) (s : State) :
    s.Completes ((readArray sel s).2.answered (readArray sel s).1.toList) := by
  obtain ⟨d, hd⟩ := readArray_state sel s
  rw [hd]
  exact .answered ⟨rfl, rfl, rfl, rfl⟩ rfl (by simp)

theorem exec_total (i : Instr) (s : State) : ∃ t, exec i s = .next t := by
  cases i with
  | init klen nlen ctr key nonce => simp only [exec, execInit]; split <;> exact ⟨_, rfl⟩
  | setw sec idx v => simp only [exec, execSetw]; split <;> exact ⟨_, rfl⟩
  | incr delta => simp only [exec, execIncr]; split <;> exact ⟨_, rfl⟩
  | rotl32 v n => simp only [exec, execRotl32]; split <;> exact ⟨_, rfl⟩
  | getctr | getst _ | ser _ | compute | add32 _ _ | xor32 _ _ | qround _ _ _ _ => exact ⟨_, rfl⟩

/-- Every command ends in one of the two ways, whatever the state. -/
theorem exec_completes {i : Instr} {s t : State} (h : exec i s = .next t) : s.Completes t := by
  cases i with
  | init klen nlen ctr key nonce =>
    obtain ⟨-, -, rfl⟩ | ⟨-, rfl⟩ := execInit_cases h
    · exact .answered ⟨rfl, rfl, rfl, rfl⟩ rfl (by decide)
    · exact .failed _
  | setw sec idx v =>
    obtain ⟨-, rfl⟩ | ⟨-, rfl⟩ := execSetw_cases h
    · exact completes_writeS s _ v
    · exact .failed _
  | incr delta =>
    obtain ⟨-, rfl⟩ | ⟨-, rfl⟩ := execIncr_cases h
    · exact .failed _
    · exact completes_writeS s 12 _
  | rotl32 v n =>
    obtain ⟨-, rfl⟩ | ⟨-, rfl⟩ := execRotl32_cases h
    · exact .answered (.refl s) rfl (by simp)
    · exact .failed _
  | getst sel =>
    rw [execGetst_cases h]
    exact completes_readArray sel s
  | ser sel =>
    rw [execSer_cases h, wordsOfBytes_serialize]
    exact completes_readArray sel s
  | compute =>
    rw [execCompute_cases h]
    exact .answered ⟨rfl, rfl, rfl, rfl⟩ rfl (by decide)
  | getctr | add32 _ _ | xor32 _ _ | qround _ _ _ _ =>
    rw [respond_cases h]
    exact .answered (.refl s) rfl (by simp)

/-- No command touches a partial packet, the command stream or the inputs (R49). -/
theorem exec_sameInputs {i : Instr} {s t : State} (h : exec i s = .next t) : s.SameInputs t := by
  cases exec_completes h with
  | answered hin _ _ => exact hin.emit _
  | failed e => exact (State.SameInputs.refl s).emit _

theorem ErrorCode.code_le (e : ErrorCode) : e.code ≤ 5 := by cases e <;> decide

theorem isResponse_ok {payload : List Word} (hp : payload.length ∈ [0, 1, 4, 16]) :
    IsResponse (statusWord 0 payload.length :: payload) := by
  simp only [List.mem_cons, List.not_mem_nil, or_false] at hp
  have hlt : payload.length < 256 := by omega
  refine ⟨?_, ?_, countField_statusWord (by decide) hlt, hp, fun hne => ?_⟩
  · rw [statusWord_toNat (by decide) hlt]; omega
  · rw [statusField_statusWord (by decide) hlt]; decide
  · exact absurd (statusField_statusWord (by decide) hlt) hne

theorem isResponse_error (e : ErrorCode) : IsResponse [statusWord e.code 0] := by
  have hle := e.code_le
  have hlt : e.code < 256 := by omega
  refine ⟨?_, ?_, countField_statusWord hlt (by decide), .inl rfl, fun _ => rfl⟩
  · rw [statusWord_toNat hlt (by decide)]; omega
  · rw [statusField_statusWord hlt (by decide)]; exact hle

/-! ### Steps and transactions -/

theorem step_command {s : State} {i : Instr} {rest : List Word} (hs : s.Ready)
    (hd : decode s.arrived = .command i rest) : step s = exec i (s.consume rest) := by
  obtain ⟨hrst, hroom⟩ := hs
  simp [step, fetch, receive, hrst, hroom, hd, -State.arrived_eq]

theorem State.idle_iff (s : State) :
    s.idle = true ↔ s.held = [] ∧ s.cmd = [] ∧ s.rsp = [] ∧ s.room = true ∧ s.rst = false := by
  simp [State.idle, and_assoc]

/-- On an engine with nothing held and nothing waiting, sending a packet and consuming it whole leaves it as it was. -/
theorem State.consume_hostSend {e : State} (hheld : e.held = []) (hcmd : e.cmd = []) (ws : List Word) :
    (e.hostSend ws).consume [] = e := by
  apply State.eq_of_fields <;> simp [hheld, hcmd]

/-- An idle engine performs a well-formed command that is sent to it. -/
theorem step_hostSend_encode {i : Instr} {e : State} (he : e.idle = true) (hw : WellFormed i = true) :
    step (e.hostSend (encode i)) = exec i e := by
  obtain ⟨hheld, hcmd, -, hroom, hrst⟩ := e.idle_iff.mp he
  have hd : decode (e.hostSend (encode i)).arrived = .command i [] := by
    simpa [hheld, hcmd] using decode_encode_append hw []
  have hready : (e.hostSend (encode i)).Ready := ⟨hrst, hroom⟩
  rw [step_command hready hd, State.consume_hostSend hheld hcmd]

theorem State.hostTake_all (s : State) : s.hostTake s.rsp.length = { s with rsp := [] } := by
  simp [State.hostTake]

theorem transact_of_exec {i : Instr} {e t : State} (he : e.idle = true) (hw : WellFormed i = true)
    (ht : exec i e = .next t) : transact i e = (readResponse t.rsp, { t with rsp := [] }) := by
  simp [transact, he, step_hostSend_encode he hw, ht, State.hostTake_all]

/-- An idle engine is idle again once the response of a command is taken. -/
theorem idle_after_exec {i : Instr} {e t : State} (he : e.idle = true) (ht : exec i e = .next t) :
    State.idle { t with rsp := [] } = true := by
  obtain ⟨hheld, hcmd, -, hroom, hrst⟩ := e.idle_iff.mp he
  have hin := exec_sameInputs ht
  exact (State.idle_iff _).mpr
    ⟨hin.held.trans hheld, hin.cmd.trans hcmd, rfl, hin.room.trans hroom, hin.rst.trans hrst⟩

end Sys2Proof.Machine

/-! ### The obligations -/

namespace Sys2Proof.Spec

open Sys2Proof.Machine

/-- Settles O7: the packet at the head decodes to its command, which a ready engine performs. -/
theorem stepRunsDecodedCommand : Obligations.StepRunsDecodedCommand := by
  intro i hw s rest hs harr
  have hd : decode s.arrived = .command i rest := by
    rw [State.arrived_eq, harr, decode_encode_append hw]
  exact step_command hs hd

/-- Settles O33: a command is total, and each of the two ways it can end appends one response packet. -/
theorem everyCommandAnswersOnce : Obligations.EveryCommandAnswersOnce := by
  intro i s
  obtain ⟨t, ht⟩ := exec_total i s
  cases exec_completes ht with
  | answered _ hrsp hlen => exact ⟨_, _, ht, by rw [State.answered_rsp, hrsp], isResponse_ok hlen⟩
  | failed e => exact ⟨_, _, ht, State.failed_rsp s e, isResponse_error e⟩

/-- Settles O48: the packet sent is performed as `exec` says, and no command changes what makes an engine idle. -/
theorem transactionIsExec : Obligations.TransactionIsExec :=
  fun _ _ _ he hw ht => ⟨transact_of_exec he hw ht, idle_after_exec he ht⟩

end Sys2Proof.Spec

/-! ## Proofs for 10_state.md: what a command does to the arrays, the invariant, and a packet that arrives in parts -/

namespace Sys2Proof.Machine

/-! ### What every command does to S, W and F -/

/-- All that a command can do to the three arrays (R21, R27): leave them, or write them as INIT, SETW, INCR or COMPUTE
does. -/
inductive State.ArraysAfter (s t : State) : Instr → Prop
  | kept {i : Instr} (hS : t.S = s.S) (hW : t.W = s.W) (hF : t.F = s.F) : s.ArraysAfter t i
  | constructed {klen nlen : Nat} {ctr : Word} {key nonce : List Word}
      (hS : t.S = constructedBlock klen nlen ctr key nonce) (hW : t.W = none) (hF : t.F = none) :
      s.ArraysAfter t (.init klen nlen ctr key nonce)
  | sectionWritten {sec : Section} {idx : Int} {v : Word} (hlo : 0 ≤ idx) (hhi : idx < sectionLength sec)
      (hS : t.S = s.S.setIfInBounds (sectionBase sec + idx.toNat) v) (hW : t.W = s.W) (hF : t.F = s.F) :
      s.ArraysAfter t (.setw sec idx v)
  | counted {delta : Word} (hsum : s.S[12].toNat + delta.toNat < 2 ^ 32)
      (hS : t.S = s.S.setIfInBounds 12 (add32 s.S[12] delta)) (hW : t.W = s.W) (hF : t.F = s.F) :
      s.ArraysAfter t (.incr delta)
  | computed (hS : t.S = s.S) (hW : t.W = some (rounds s.S)) (hF : t.F = some (addBlocks s.S (rounds s.S))) :
      s.ArraysAfter t .compute

/-- A read leaves the arrays as they are, present or not. -/
theorem arraysAfter_readArray (i : Instr) (sel : Selector) (s : State) (p : List Word) :
    s.ArraysAfter ((readArray sel s).2.answered p) i := by
  obtain ⟨d, hd⟩ := readArray_state sel s
  rw [hd]
  exact .kept rfl rfl rfl

theorem exec_arraysAfter {i : Instr} {s t : State} (h : exec i s = .next t) : s.ArraysAfter t i := by
  cases i with
  | init klen nlen ctr key nonce =>
    obtain ⟨-, -, rfl⟩ | ⟨-, rfl⟩ := execInit_cases h
    · exact .constructed rfl rfl rfl
    · exact .kept rfl rfl rfl
  | setw sec idx v =>
    obtain ⟨hin, rfl⟩ | ⟨-, rfl⟩ := execSetw_cases h
    · obtain ⟨hlo, hhi⟩ := (inRange_iff _ _).mp hin
      exact .sectionWritten hlo hhi rfl rfl rfl
    · exact .kept rfl rfl rfl
  | incr delta =>
    obtain ⟨-, rfl⟩ | ⟨hno, rfl⟩ := execIncr_cases h
    · exact .kept rfl rfl rfl
    · exact .counted ((counterOverflows_false_iff _ _).mp hno) rfl rfl rfl
  | rotl32 v n =>
    obtain ⟨-, rfl⟩ | ⟨-, rfl⟩ := execRotl32_cases h <;> exact .kept rfl rfl rfl
  | getst sel =>
    rw [execGetst_cases h]
    exact arraysAfter_readArray _ sel s _
  | ser sel =>
    rw [execSer_cases h]
    exact arraysAfter_readArray _ sel s _
  | compute =>
    rw [execCompute_cases h]
    exact .computed rfl rfl rfl
  | getctr | add32 _ _ | xor32 _ _ | qround _ _ _ _ =>
    rw [respond_cases h]
    exact .kept rfl rfl rfl

/-! ### Words of S -/

/-- The one word of an array that a write can change is the word written. -/
theorem written_of_changed {b : Block} {n : Nat} {v : Word} {k : Fin 16} (h : (b.setIfInBounds n v)[k] ≠ b[k]) :
    n = k ∧ (b.setIfInBounds n v)[k] = v := by
  simp only [Fin.getElem_fin, Vector.getElem_setIfInBounds] at h ⊢
  split at h
  · next hn => exact ⟨hn, if_pos hn⟩
  · exact absurd rfl h

/-- No section holds the counter (R42). -/
theorem section_index_ne_counter {sec : Section} {idx : Int} (hlo : 0 ≤ idx) (hhi : idx < sectionLength sec) :
    sectionBase sec + idx.toNat ≠ 12 := by
  cases sec <;> simp only [sectionBase, sectionLength] at hhi ⊢ <;> omega

theorem sectionBase_ge_of_ne_const {sec : Section} (h : sec ≠ .const) : 4 ≤ sectionBase sec := by
  cases sec with
  | const => exact absurd rfl h
  | key => decide
  | nonce => decide

theorem add32_toNat_of_lt {a b : Word} (h : a.toNat + b.toNat < 2 ^ 32) : (add32 a b).toNat = a.toNat + b.toNat :=
  BitVec.toNat_add_of_lt h

/-- INIT with nothing given makes the reset state's S but for the counter (R90, corner cases). -/
theorem constructedBlock_empty (ctr : Word) : constructedBlock 0 0 ctr [] [] = resetBlock.set 12 ctr := rfl

theorem constantsIntact_of_S_eq {s t : State} (hS : t.S = s.S) (h : s.ConstantsIntact) : t.ConstantsIntact := by
  simpa only [State.ConstantsIntact, hS] using h

theorem constantsIntact_of_constructed {t : State} {klen nlen : Nat} {ctr : Word} {key nonce : List Word}
    (hS : t.S = constructedBlock klen nlen ctr key nonce) : t.ConstantsIntact := by
  simp only [State.ConstantsIntact, hS]
  exact ⟨rfl, rfl, rfl, rfl⟩

/-- A write of S from word 4 on leaves the constants. -/
theorem constantsIntact_of_written {s t : State} {n : Nat} {v : Word} (hn : 4 ≤ n)
    (hS : t.S = s.S.setIfInBounds n v) (h : s.ConstantsIntact) : t.ConstantsIntact := by
  have hne (k : Nat) (hk : k < 4) : (s.S.setIfInBounds n v)[k] = s.S[k] :=
    Vector.getElem_setIfInBounds_ne (by omega) (by omega)
  simpa only [State.ConstantsIntact, hS, hne _ (by decide : 0 < 4), hne _ (by decide : 1 < 4),
    hne _ (by decide : 2 < 4), hne _ (by decide : 3 < 4)] using h

/-! ### W and F: present together, and the block of a state -/

theorem isBlockOf_rounds (b : Block) : IsBlockOf b (rounds b) (addBlocks b (rounds b)) :=
  ⟨rfl, addBlocks_getElem b (rounds b)⟩

theorem blocksConsistent_of_eq {s t : State} (hW : t.W = s.W) (hF : t.F = s.F) (h : s.BlocksConsistent) :
    t.BlocksConsistent := by
  simpa only [State.BlocksConsistent, hW, hF] using h

theorem exec_compute_fresh {s t : State} (h : exec .compute s = .next t) : t.Fresh := by
  rw [execCompute_cases h]
  exact ⟨_, _, rfl, rfl, isBlockOf_rounds s.S⟩

theorem fresh_of_eq {s t : State} (hS : t.S = s.S) (hW : t.W = s.W) (hF : t.F = s.F) (h : s.Fresh) : t.Fresh := by
  simpa only [State.Fresh, hS, hW, hF] using h

theorem exec_keeps_blocksConsistent {i : Instr} {s t : State} (h : exec i s = .next t) (hs : s.BlocksConsistent) :
    t.BlocksConsistent := by
  cases exec_arraysAfter h with
  | kept _ hW hF | sectionWritten _ _ _ hW hF | counted _ _ hW hF => exact blocksConsistent_of_eq hW hF hs
  | constructed _ hW hF => exact .inl ⟨hW, hF⟩
  | computed _ hW hF => exact .inr ⟨s.S, _, _, hW, hF, isBlockOf_rounds s.S⟩

theorem exec_keeps_blocks {i : Instr} {s t : State} (hi : Spec.LeavesBlocks i) (h : exec i s = .next t) :
    t.W = s.W ∧ t.F = s.F := by
  cases exec_arraysAfter h with
  | kept _ hW hF | sectionWritten _ _ _ hW hF | counted _ _ hW hF => exact ⟨hW, hF⟩
  | constructed => exact hi.elim
  | computed => exact hi.elim

/-! ### The words held -/

theorem heldPartial_of_nil {s : State} (h : s.held = []) : s.HeldPartial := by
  intro w ws hw
  rw [h] at hw
  cases hw

/-- What has arrived of an incomplete packet is a proper part of it (R32, R71). -/
theorem heldPartial_hold {s : State} (h : decode s.arrived = .incomplete) : s.hold.HeldPartial :=
  (decode_incomplete_iff s.arrived).mp h

theorem step_incomplete {s : State} (hs : s.Ready) (hd : decode s.arrived = .incomplete) (hc : s.cmd ≠ []) :
    step s = .next s.hold := by
  obtain ⟨hrst, hroom⟩ := hs
  obtain ⟨w, ws, hcmd⟩ := List.exists_cons_of_ne_nil hc
  simp [step, fetch, receive, hrst, hroom, hd, hcmd, -State.arrived_eq]

/-- A packet of which a word is missing is incomplete (R71). -/
theorem decode_incomplete_of_missing {a b : List Word} (hp : IsPacket (a ++ b)) (hb : b ≠ []) :
    decode a = .incomplete := by
  rw [decode_incomplete_iff]
  rintro h t rfl
  have hlen : (t ++ b).length + 1 = plen h := hp
  have hpos := List.length_pos_iff.mpr hb
  simp only [List.length_append, List.length_cons] at hlen ⊢
  omega

/-! ### The invariant -/

theorem State.reset_inv : State.reset.Inv := ⟨.inl ⟨rfl, rfl⟩, heldPartial_of_nil rfl⟩

theorem takeReset_inv (s : State) : s.takeReset.Inv := ⟨.inl ⟨rfl, rfl⟩, heldPartial_of_nil rfl⟩

/-- A command starts with no word held, and no command holds any. -/
theorem exec_consume_inv {i : Instr} {s t : State} {rest : List Word} (hs : s.Inv)
    (h : exec i (s.consume rest) = .next t) : t.Inv where
  blocks := exec_keeps_blocksConsistent h (blocksConsistent_of_eq rfl rfl hs.blocks)
  held := heldPartial_of_nil (exec_sameInputs h).held

theorem illegal_inv {s : State} (hs : s.Inv) (rest : List Word) (e : ErrorCode) : ((s.consume rest).failed e).Inv :=
  ⟨blocksConsistent_of_eq rfl rfl hs.blocks, heldPartial_of_nil rfl⟩

theorem hold_inv {s : State} (hs : s.Inv) (hd : decode s.arrived = .incomplete) : s.hold.Inv :=
  ⟨blocksConsistent_of_eq rfl rfl hs.blocks, heldPartial_hold hd⟩

end Sys2Proof.Machine

/-! ### The obligations -/

namespace Sys2Proof.Spec

open Sys2Proof.Machine

theorem sectionRange_eq (sec : Section) : sectionRange sec = (sectionBase sec, sectionLength sec) := by
  cases sec <;> rfl

/-- Settles O43, by the four things a step that answers can be: the reset, a command, an illegal packet, the receiving
of a part of a packet. -/
theorem stepKeepsInvariant : Obligations.StepKeepsInvariant := by
  intro s t hs h
  obtain ⟨-, rfl⟩ | ⟨-, -, ⟨i, rest, -, hexec⟩ | ⟨why, rest, -, rfl⟩ | ⟨hd, -, rfl⟩⟩ := step_cases h
  · exact takeReset_inv s
  · exact exec_consume_inv hs hexec
  · exact illegal_inv hs rest _
  · exact hold_inv hs hd

/-- Settles O8: a proper part of a packet is incomplete and is held; with the missing words behind it the whole packet
stands at the head again. -/
theorem splitPacketRunsTheSame : Obligations.SplitPacketRunsTheSame := by
  intro i a b s hw he hb hs harr hc
  have hpacket : IsPacket (a ++ b) := he ▸ encode_isPacket i hw
  have hd : decode s.arrived = .incomplete := by
    rw [State.arrived_eq, harr]
    exact decode_incomplete_of_missing hpacket hb
  constructor
  · rw [step_incomplete hs hd hc, State.hold, harr]
  · have hwhole : a ++ b = encode i ++ [] := by rw [he, List.append_nil]
    exact stepRunsDecodedCommand i hw (State.hostSend { s with held := a, cmd := [] } b) [] hs hwhole

/-- Settles O37, by what each command does to S. -/
theorem wordsOfSWrittenAsMapped : Obligations.WordsOfSWrittenAsMapped := by
  intro i s t k h hne
  cases exec_arraysAfter h with
  | kept hS | computed hS => exact absurd (by rw [hS]) hne
  | constructed => exact .inl ⟨_, _, _, _, _, rfl⟩
  | @sectionWritten sec idx v hlo hhi hS =>
    rw [hS] at hne ⊢
    obtain ⟨hk, hv⟩ := written_of_changed hne
    refine .inr (.inl ⟨sec, idx, v, rfl, ?_, hlo, ?_, hv⟩) <;> simp only [sectionRange_eq] <;> omega
  | counted _ hS =>
    rw [hS] at hne
    obtain ⟨hk, -⟩ := written_of_changed hne
    exact .inr (.inr ⟨_, rfl, Fin.ext hk.symm⟩)

/-- Settles O38: no section holds the counter, and INCR adds to it only where the sum is a word. -/
theorem counterNeverDecreases : Obligations.CounterNeverDecreases := by
  intro i s t h
  cases exec_arraysAfter h with
  | kept hS | computed hS => exact .inl (by rw [hS])
  | constructed hS => exact .inr ⟨_, _, _, _, _, rfl, by rw [hS]; rfl⟩
  | sectionWritten hlo hhi hS =>
    left
    rw [hS, Vector.getElem_setIfInBounds_ne _ (section_index_ne_counter hlo hhi)]
  | counted hsum hS =>
    left
    rw [hS, Vector.getElem_setIfInBounds_self, add32_toNat_of_lt hsum]
    omega

/-- Settles O39, by what each command does to W and F. -/
theorem blocksWrittenOnlyByComputeAndInit : Obligations.BlocksWrittenOnlyByComputeAndInit := by
  refine ⟨fun i s t hi h => exec_keeps_blocks hi h, fun klen nlen ctr key nonce s t h => ?_, fun s t h => ?_⟩
  · cases exec_arraysAfter h with
    | kept _ hW hF => exact .inr ⟨hW, hF⟩
    | constructed _ hW hF => exact .inl ⟨hW, hF⟩
  · obtain ⟨w, f, hW, hF, -⟩ := exec_compute_fresh h
    simp [hW, hF]

/-- Settles O41: COMPUTE makes the block of S; a command that writes no word of S makes it again or leaves all three
arrays. -/
theorem blockCurrentUntilStateWritten : Obligations.BlockCurrentUntilStateWritten := by
  refine ⟨fun s t h => exec_compute_fresh h, fun i s t hs hi h => ?_,
    fun sec idx v s t h => exec_keeps_blocks (i := .setw sec idx v) trivial h,
    fun delta s t h => exec_keeps_blocks (i := .incr delta) trivial h⟩
  cases exec_arraysAfter h with
  | kept hS hW hF => exact fresh_of_eq hS hW hF hs
  | computed => exact exec_compute_fresh h
  | constructed => exact hi.elim
  | sectionWritten => exact hi.elim
  | counted => exact hi.elim

/-- Settles O42: INIT writes the constants anew, and every other write but SETW const is from word 4 on. -/
theorem constantsKeptUnlessSetwConst : Obligations.ConstantsKeptUnlessSetwConst := by
  refine ⟨fun i s t hs hi h => ?_, fun klen nlen ctr key nonce s t hk4 hk hn4 hn h => ?_, rfl, rfl, rfl, rfl⟩
  · cases exec_arraysAfter h with
    | kept hS | computed hS => exact constantsIntact_of_S_eq hS hs
    | constructed hS => exact constantsIntact_of_constructed hS
    | sectionWritten _ _ hS =>
      exact constantsIntact_of_written (Nat.le_add_right_of_le (sectionBase_ge_of_ne_const hi)) hS hs
    | counted _ hS => exact constantsIntact_of_written (by decide) hS hs
  · have hkey : lengthOk klen Config.keyWords = true :=
      (lengthOk_iff _ _).mpr ⟨hk4, Nat.div_le_div_right hk⟩
    have hnonce : lengthOk nlen Config.nonceWords = true :=
      (lengthOk_iff _ _).mpr ⟨hn4, Nat.div_le_div_right hn⟩
    obtain ⟨-, -, rfl⟩ | ⟨hbad, -⟩ := execInit_cases h
    · exact constantsIntact_of_constructed rfl
    · simp [hkey, hnonce] at hbad

/-- Settles O44: W and F are absent and no word is held. -/
theorem resetHasInvariant : Obligations.ResetHasInvariant := State.reset_inv

/-- Settles O45, field by field. -/
theorem resetState : Obligations.ResetState := ⟨rfl, rfl, rfl, rfl⟩

/-- Settles O47: the array is the reset state's with the counter written. -/
theorem emptyInitGivesResetArrays : Obligations.EmptyInitGivesResetArrays := by
  intro s ctr
  refine ⟨resetBlock.set 12 ctr, Vector.getElem_set_self _, fun k hk => ?_, ?_⟩
  · have hne : 12 ≠ k.val := fun heq => hk (Fin.ext heq.symm)
    exact Vector.getElem_set_ne _ _ hne
  · rw [← constructedBlock_empty]
    rfl

end Sys2Proof.Spec

/-! ## Proofs for 20_memory.md: bytes of words, the two reads, packets in order, and the frame of every command -/

/-! ### Bytes of words, and whole packets at the head of the stream -/

namespace Sys2Proof

theorem leBytes_eq_slices (v : Word) : leBytes v =
    [BitVec.ofNat 8 v.toNat, BitVec.ofNat 8 (v.toNat / 2 ^ 8), BitVec.ofNat 8 (v.toNat / 2 ^ 16),
      BitVec.ofNat 8 (v.toNat / 2 ^ 24)] := by
  simp [leBytes, BitVec.extractLsb', Nat.shiftRight_eq_div_pow]

theorem bytesOfWords_cons (v : Word) (ws : List Word) : bytesOfWords (v :: ws) = leBytes v ++ bytesOfWords ws := rfl

theorem length_bytesOfWords (ws : List Word) : (bytesOfWords ws).length = 4 * ws.length := by
  induction ws with
  | nil => rfl
  | cons v ws ih =>
    rw [bytesOfWords_cons, List.length_append, ih, List.length_cons, leBytes_eq_slices]
    simp only [List.length_cons, List.length_nil]
    omega

/-- Byte `k` of words laid out as bytes is byte `k mod 4` of word `k div 4` (R45). -/
theorem bytesOfWords_getElem? (ws : List Word) (k : Nat) : (bytesOfWords ws)[k]? =
    ws[k / 4]?.map fun v => BitVec.ofNat 8 (v.toNat / 2 ^ (8 * (k % 4))) := by
  induction ws generalizing k with
  | nil => rfl
  | cons v ws ih =>
    rw [bytesOfWords_cons, leBytes_eq_slices]
    match k with
    | 0 | 1 | 2 | 3 => simp
    | k + 4 => simpa using ih k

/-- Four bytes are given back by the word they make (R44, R45). -/
theorem leBytes_leWord (b0 b1 b2 b3 : Byte) : leBytes (leWord b0 b1 b2 b3) = [b0, b1, b2, b3] := by
  have hlt0 := b0.isLt
  have hlt1 := b1.isLt
  have hlt2 := b2.isLt
  have hlt3 := b3.isLt
  simp only [leBytes_eq_slices, leWord, List.cons.injEq, and_true]
  refine ⟨?_, ?_, ?_, ?_⟩ <;> apply BitVec.eq_of_toNat_eq <;> simp only [BitVec.toNat_ofNat] <;> omega

/-- Whether a whole packet is legal, and which command it is, does not depend on the words behind it (R63, R71). -/
theorem decode_isPacket_append {p : List Word} (hp : Machine.IsPacket p) :
    (∃ i, ∀ rest, decode (p ++ rest) = .command i rest) ∨ ∃ why, ∀ rest, decode (p ++ rest) = .illegal why rest := by
  cases p with
  | nil => exact hp.elim
  | cons h payload =>
    cases hd : decodePacket h payload with
    | ok i => exact .inl ⟨i, fun rest => by rw [List.cons_append, decode_packet hp, hd]⟩
    | error why => exact .inr ⟨why, fun rest => by rw [List.cons_append, decode_packet hp, hd]⟩

end Sys2Proof

namespace Sys2Proof.Machine

theorem length_serialize (b : Block) : (serialize b).length = 64 := by
  rw [serialize, length_bytesOfWords, Vector.length_toList]

theorem serialize_getElem? (b : Block) (k : Fin 64) : (serialize b)[k.val]? =
    some (BitVec.ofNat 8 (b[k.val / 4].toNat / 2 ^ (8 * (k.val % 4)))) := by
  rw [serialize, bytesOfWords_getElem?, List.getElem?_eq_getElem (by rw [Vector.length_toList]; omega),
    Vector.getElem_toList, Option.map_some]

/-! ### The draws counter and the arrays that a command leaves -/

/-- Only a read of an absent array draws (R28; log 7). -/
theorem readArray_draws (sel : Selector) (s : State) :
    (readArray sel s).2.draws = s.draws ∨ s.selected sel = none := by
  cases h : s.selected sel with
  | some b => exact .inl (by rw [readArray_present h])
  | none => exact .inr rfl

theorem exec_draws {i : Instr} {s t : State} (h : exec i s = .next t) :
    t.draws = s.draws ∨ ∃ sel, (i = .getst sel ∨ i = .ser sel) ∧ s.selected sel = none := by
  cases i with
  | init klen nlen ctr key nonce => obtain ⟨-, -, rfl⟩ | ⟨-, rfl⟩ := execInit_cases h <;> exact .inl rfl
  | setw sec idx v => obtain ⟨-, rfl⟩ | ⟨-, rfl⟩ := execSetw_cases h <;> exact .inl rfl
  | incr delta => obtain ⟨-, rfl⟩ | ⟨-, rfl⟩ := execIncr_cases h <;> exact .inl rfl
  | rotl32 v n => obtain ⟨-, rfl⟩ | ⟨-, rfl⟩ := execRotl32_cases h <;> exact .inl rfl
  | getst sel =>
    rw [execGetst_cases h, State.answered_draws]
    exact (readArray_draws sel s).imp_right fun habsent => ⟨sel, .inl rfl, habsent⟩
  | ser sel =>
    rw [execSer_cases h, State.answered_draws]
    exact (readArray_draws sel s).imp_right fun habsent => ⟨sel, .inr rfl, habsent⟩
  | compute => rw [execCompute_cases h]; exact .inl rfl
  | getctr | add32 _ _ | xor32 _ _ | qround _ _ _ _ => rw [respond_cases h]; exact .inl rfl

theorem exec_keeps_S {i : Instr} {s t : State} (hi : Spec.WritesNoS i) (h : exec i s = .next t) : t.S = s.S := by
  cases exec_arraysAfter h with
  | kept hS | computed hS => exact hS
  | constructed | sectionWritten | counted => exact hi.elim

theorem leavesBlocks_of_writesNoS {i : Instr} (hi : Spec.WritesNoS i) (hne : i ≠ .compute) : Spec.LeavesBlocks i := by
  cases i with
  | init | setw | incr => exact hi.elim
  | compute => exact absurd rfl hne
  | getctr | getst | ser | add32 | rotl32 | xor32 | qround => trivial

/-! ### The words behind a packet change nothing -/

theorem readArray_of_cmd (sel : Selector) (s : State) (ws : List Word) : readArray sel { s with cmd := ws } =
    ((readArray sel s).1, { (readArray sel s).2 with cmd := ws }) := by
  have hsame : State.selected { s with cmd := ws } sel = s.selected sel := by cases sel <;> rfl
  cases hsel : s.selected sel with
  | some b => rw [readArray_present hsel, readArray_present (hsame.trans hsel)]
  | none => rw [readArray_absent hsel, readArray_absent (hsame.trans hsel)]

/-- No command reads the command stream: with other words waiting it does the same (R49). -/
theorem exec_of_cmd {i : Instr} {s t : State} (h : exec i s = .next t) (ws : List Word) :
    exec i { s with cmd := ws } = .next { t with cmd := ws } := by
  cases i with
  | init klen nlen ctr key nonce =>
    obtain ⟨hkey, hnonce, rfl⟩ | ⟨hbad, rfl⟩ := execInit_cases h
    · exact if_pos (by rw [hkey, hnonce]; rfl)
    · exact if_neg (by rcases hbad with hbad | hbad <;> simp [hbad])
  | setw sec idx v =>
    obtain ⟨hin, rfl⟩ | ⟨hout, rfl⟩ := execSetw_cases h
    · exact if_pos hin
    · exact if_neg (Bool.eq_false_iff.mp hout)
  | incr delta =>
    obtain ⟨hover, rfl⟩ | ⟨hno, rfl⟩ := execIncr_cases h
    · exact if_pos hover
    · exact if_neg (Bool.eq_false_iff.mp hno)
  | rotl32 v n =>
    obtain ⟨hin, rfl⟩ | ⟨hout, rfl⟩ := execRotl32_cases h
    · exact if_pos hin
    · exact if_neg (Bool.eq_false_iff.mp hout)
  | getst sel =>
    rw [execGetst_cases h]
    simp only [exec, execGetst, respond_next, readArray_of_cmd]
    rfl
  | ser sel =>
    rw [execSer_cases h]
    simp only [exec, execSer, respond_next, readArray_of_cmd]
    rfl
  | getctr | compute | add32 _ _ | xor32 _ _ | qround _ _ _ _ => cases h; rfl

theorem step_illegal {s : State} {why : Illegal} {rest : List Word} (hs : s.Ready)
    (hd : decode s.arrived = .illegal why rest) : step s = .next ((s.consume rest).failed .illegalCommand) := by
  obtain ⟨hrst, hroom⟩ := hs
  simp [step, fetch, receive, hrst, hroom, hd, -State.arrived_eq]

/-- A whole packet that stands alone is performed and answered in one step, and words behind it change nothing: they
wait where the packet has gone (R50, R63). -/
theorem step_packet_alone_or_followed {s : State} {p : List Word} (hs : s.Ready) (hheld : s.held = [])
    (hp : IsPacket p) (rest : List Word) : ∃ (u : State) (r : List Word),
      step { s with cmd := p } = .next u ∧ (s.consume []).SameInputs u ∧ u.rsp = s.rsp ++ r ∧ IsResponse r ∧
      step { s with cmd := p ++ rest } = .next { u with cmd := rest } := by
  have hready (ws : List Word) : State.Ready { s with cmd := ws } := hs
  have harrived (ws : List Word) : State.arrived { s with cmd := ws } = ws := by simp [hheld]
  obtain ⟨i, hd⟩ | ⟨why, hd⟩ := decode_isPacket_append hp
  · have hstep (ws : List Word) : step { s with cmd := p ++ ws } = exec i (s.consume ws) :=
      step_command (hready _) (by rw [harrived, hd])
    obtain ⟨u, r, hu, hrsp, hr⟩ := Spec.everyCommandAnswersOnce i (s.consume [])
    refine ⟨u, r, ?_, exec_sameInputs hu, hrsp, hr, (hstep rest).trans (exec_of_cmd hu rest)⟩
    simpa using (hstep []).trans hu
  · have hstep (ws : List Word) : step { s with cmd := p ++ ws } = .next ((s.consume ws).failed .illegalCommand) :=
      step_illegal (hready _) (by rw [harrived, hd])
    refine ⟨(s.consume []).failed .illegalCommand, _, ?_, (State.SameInputs.refl _).emit _, rfl, isResponse_error _,
      hstep rest⟩
    simpa using hstep []

theorem run_succ_of_step {s t : State} (h : step s = .next t) (k : Nat) : core.run (k + 1) s = core.run k t := by
  simp only [Host.Core.run, Host.Check.core_step, h]

end Sys2Proof.Machine

/-! ### The obligations -/

namespace Sys2Proof.Spec

open Sys2Proof.Machine

/-- Settles O29: the bytes SER packs into words are the words GETST answers, and both read the same array. -/
theorem serAndGetstAgree : Obligations.SerAndGetstAgree := by
  intro s sel
  simp only [exec, execSer, execGetst, wordsOfBytes_serialize]

/-- Settles O30, from the layout of one word and of a list of words; a word is one round trip of a list of one. -/
theorem serialisationLittleEndian : Obligations.SerialisationLittleEndian :=
  ⟨leBytes_eq_slices, length_serialize, serialize_getElem?, by decide, fun v => wordsOfBytes_bytesOfWords [v],
    leBytes_leWord⟩

/-- Settles O36, by induction on the packets: the first is performed as if alone, and the rest wait behind it. -/
theorem responsesAnswerInOrder : Obligations.ResponsesAnswerInOrder := by
  intro ps rest s hs hheld hcmd hps
  induction ps generalizing s with
  | nil => exact ⟨[], s, rfl, (List.append_nil _).symm, rfl⟩
  | cons p ps ih =>
    obtain ⟨hp, hps⟩ := List.forall_mem_cons.mp hps
    obtain ⟨u, r, hstep, hin, hrsp, hr, hfollowed⟩ :=
      step_packet_alone_or_followed hs hheld hp (ps.flatten ++ rest)
    have hu : u.Ready := ⟨hin.rst.trans hs.1, hin.room.trans hs.2⟩
    obtain ⟨rs, t, hperf, ht, hrun⟩ := ih u hu hin.held hin.cmd hps
    refine ⟨r :: rs, t, ⟨u, hstep, hin.cmd, hrsp, hr, hperf⟩, ?_, ?_⟩
    · rw [ht, hrsp, List.flatten_cons, List.append_assoc]
    · rw [List.flatten_cons, List.append_assoc, List.length_cons]
      exact (run_succ_of_step hfollowed ps.length).trans hrun

/-- Settles O40, from what each command does to the arrays, the inputs and the draws. -/
theorem framesOfAllCommands : Obligations.FramesOfAllCommands := by
  intro i s t h
  obtain ⟨hheld, hcmd, hroom, hrst⟩ := exec_sameInputs h
  exact ⟨fun hi => exec_keeps_S hi h, fun hi hne => exec_keeps_blocks (leavesBlocks_of_writesNoS hi hne) h,
    hheld, hcmd, hroom, hrst, exec_draws h⟩

end Sys2Proof.Spec

/-! ## Proofs for 30_encoding.md: the legal headers, the decoder and the encoder as inverses, and NEXTBLOCK -/

/-! ### The headers of an operation -/

namespace Sys2Proof

theorem opOf_eq_some_iff (b : Byte) (o : Op) : opOf b = some o ↔ b.toNat = o.code := by
  constructor
  · intro h
    unfold opOf at h
    split at h <;> cases h <;> assumption
  · intro h
    rw [← opOf_code o, ← h, BitVec.ofNat_toNat, BitVec.setWidth_eq]

theorem Op.exists_code_iff (n : Nat) :
    (∃ o : Op, n = o.code) ↔ n ∈ [1, 2, 3, 4, 5, 6, 7, 0x10, 0x11, 0x12, 0x13] := by
  constructor
  · rintro ⟨o, rfl⟩
    cases o <;> decide
  · intro hn
    have hmap : n ∈ [Op.init, .setw, .incr, .getctr, .getst, .ser, .compute, .add32, .rotl32, .xor32, .qround].map
        Op.code := hn
    obtain ⟨o, -, rfl⟩ := List.mem_map.mp hmap
    exact ⟨o, rfl⟩

/-- The values f1 can have in a legal header of the operation are those below this bound; a reserved field is 0
(R62, R69). -/
def Op.f1Bound : Op → Nat
  | .init | .rotl32 => 256
  | .setw | .getst | .ser => 3
  | .incr | .getctr | .compute | .add32 | .xor32 | .qround => 1

/-- The same bound for f2. -/
def Op.f2Bound : Op → Nat
  | .init | .setw => 256
  | .incr | .getctr | .getst | .ser | .compute | .add32 | .rotl32 | .xor32 | .qround => 1

/-- The legal header words of an operation, by their fields (R68, R69). -/
structure Op.IsHeader (o : Op) (h : Word) : Prop where
  op : (opField h).toNat = o.code
  f1 : (f1Field h).toNat < o.f1Bound
  f2 : (f2Field h).toNat < o.f2Bound
  f3 : (f3Field h).toNat = 0

theorem Op.isHeader_iff (o : Op) (h : Word) : o.IsHeader h ↔ (opField h).toNat = o.code ∧
    (f1Field h).toNat < o.f1Bound ∧ (f2Field h).toNat < o.f2Bound ∧ (f3Field h).toNat = 0 :=
  ⟨fun ⟨h0, h1, h2, h3⟩ => ⟨h0, h1, h2, h3⟩, fun ⟨h0, h1, h2, h3⟩ => ⟨h0, h1, h2, h3⟩⟩

theorem Op.IsHeader.eq_header {o : Op} {h : Word} (ho : o.IsHeader h) :
    h = header o (f1Field h).toNat (f2Field h).toNat := by
  apply BitVec.eq_of_toNat_eq
  rw [header_toNat (f1Field h).isLt (f2Field h).isLt, header_fields h, ho.op, ho.f3]
  omega

theorem Op.IsHeader.opOf_eq {o : Op} {h : Word} (ho : o.IsHeader h) : opOf (opField h) = some o :=
  (opOf_eq_some_iff _ o).mpr ho.op

theorem Op.IsHeader.plen_eq {o : Op} {h : Word} (ho : o.IsHeader h) :
    plen h = 1 + payloadWords o (f1Field h) (f2Field h) := by
  simp only [plen, ho.opOf_eq]

theorem reservedFieldSet_eq_false_iff (o : Op) (h : Word) : reservedFieldSet o h = false ↔
    f3Field h = 0 ∧ (o.f2Reserved = true → f2Field h = 0) ∧ (o.f1Reserved = true → f1Field h = 0) := by
  simp [reservedFieldSet, and_assoc]

theorem sectionOf_eq_some_iff (b : Byte) (sec : Section) : sectionOf b = some sec ↔ b.toNat = sectionCode sec := by
  constructor
  · intro h
    unfold sectionOf at h
    split at h <;> cases h <;> assumption
  · intro h
    rw [← sectionOf_sectionCode sec, ← h, BitVec.ofNat_toNat, BitVec.setWidth_eq]

theorem selectorOf_eq_some_iff (b : Byte) (sel : Selector) :
    selectorOf b = some sel ↔ b.toNat = selectorCode sel := by
  constructor
  · intro h
    unfold selectorOf at h
    split at h <;> cases h <;> assumption
  · intro h
    rw [← selectorOf_selectorCode sel, ← h, BitVec.ofNat_toNat, BitVec.setWidth_eq]

theorem exists_sectionCode_iff (n : Nat) : (∃ sec, n = sectionCode sec) ↔ n < 3 := by
  constructor
  · rintro ⟨sec, rfl⟩
    cases sec <;> decide
  · intro h
    match n, h with
    | 0, _ => exact ⟨.const, rfl⟩
    | 1, _ => exact ⟨.key, rfl⟩
    | 2, _ => exact ⟨.nonce, rfl⟩

theorem exists_selectorCode_iff (n : Nat) : (∃ sel, n = selectorCode sel) ↔ n < 3 := by
  constructor
  · rintro ⟨sel, rfl⟩
    cases sel <;> decide
  · intro h
    match n, h with
    | 0, _ => exact ⟨.initial, rfl⟩
    | 1, _ => exact ⟨.intermediate, rfl⟩
    | 2, _ => exact ⟨.final, rfl⟩

/-- A header of the operation's opcode is legal when it sets no reserved field and its f1 names a code that the
operation has. -/
theorem Op.isHeader_iff_not_reserved {o : Op} {h : Word} (hop : (opField h).toNat = o.code) :
    o.IsHeader h ↔ reservedFieldSet o h = false ∧ (f1Field h).toNat < o.f1Bound := by
  have hlt1 := (f1Field h).isLt
  have hlt2 := (f2Field h).isLt
  simp only [Op.isHeader_iff, hop, reservedFieldSet_eq_false_iff, ← BitVec.toNat_inj]
  cases o <;> simp [Op.f1Reserved, Op.f2Reserved, Op.f1Bound, Op.f2Bound] <;> omega

theorem assemble_isOk_iff (o : Op) (h : Word) (p : List Word) :
    (∃ i, assemble o h p = .ok i) ↔ reservedFieldSet o h = false ∧ (f1Field h).toNat < o.f1Bound := by
  cases hr : reservedFieldSet o h with
  | true => simp [assemble, hr]
  | false =>
    have hreserved := (reservedFieldSet_eq_false_iff o h).mp hr
    have hlt := (f1Field h).isLt
    cases o with
    | setw =>
      simp only [Op.f1Bound, ← exists_sectionCode_iff, ← sectionOf_eq_some_iff]
      cases hsec : sectionOf (f1Field h) <;> simp [assemble, hr, hsec]
    | getst | ser =>
      simp only [Op.f1Bound, ← exists_selectorCode_iff, ← selectorOf_eq_some_iff]
      cases hsel : selectorOf (f1Field h) <;> simp [assemble, hr, hsel]
    | init | rotl32 => simpa [assemble, hr, Op.f1Bound] using hlt
    | incr | getctr | compute | add32 | xor32 | qround => simp [assemble, hr, Op.f1Bound, hreserved.2.2 rfl]

/-- The decoder takes a header exactly when it is a legal header of some operation, whatever the payload (R69, R70). -/
theorem decodePacket_isOk_iff (h : Word) (p : List Word) :
    (∃ i, decodePacket h p = .ok i) ↔ ∃ o : Op, o.IsHeader h := by
  cases hop : opOf (opField h) with
  | some o =>
    have hcode := (opOf_eq_some_iff _ _).mp hop
    simp only [decodePacket, hop, assemble_isOk_iff, ← Op.isHeader_iff_not_reserved hcode]
    exact ⟨fun ho => ⟨o, ho⟩, fun ⟨_, ho⟩ => Option.some.inj (hop.symm.trans ho.opOf_eq) ▸ ho⟩
  | none =>
    have hnot : ¬ ∃ o : Op, o.IsHeader h := fun ⟨_, ho⟩ => nomatch hop.symm.trans ho.opOf_eq
    simp [decodePacket, hop, hnot]

theorem decodePacket_error_of_not_isHeader {h : Word} (hno : ¬ ∃ o : Op, o.IsHeader h) (p : List Word) :
    ∃ why, decodePacket h p = .error why := by
  cases hd : decodePacket h p with
  | error why => exact ⟨why, rfl⟩
  | ok i => exact absurd ((decodePacket_isOk_iff h p).mp ⟨i, hd⟩) hno

/-- What the decoder reads is a whole packet at the head (R63, R71). -/
theorem decode_command_cases {ws rest : List Word} {i : Instr} (hd : decode ws = .command i rest) :
    ∃ h p, ws = h :: (p ++ rest) ∧ p.length + 1 = plen h ∧ decodePacket h p = .ok i := by
  cases ws with
  | nil => cases hd
  | cons h tail =>
    have hpos := plen_pos h
    simp only [decode] at hd
    split at hd
    · cases hd
    · next hge =>
      split at hd <;> cases hd
      next hok =>
        refine ⟨h, tail.take (plen h - 1), by rw [List.take_append_drop], ?_, hok⟩
        rw [List.length_take]
        omega

theorem signed8_toInt (b : Byte) : signed8 b.toInt = b.toNat := by
  rw [signed8, BitVec.ofInt_toInt]

theorem fitsSigned8_toInt (b : Byte) : fitsSigned8 b.toInt = true := by
  have hle := b.le_toInt
  have hlt := b.toInt_lt
  rw [fitsSigned8_iff]
  omega

/-- The encoder reaches every legal header with every payload of its length (R68, R70). -/
theorem exists_encode_eq {o : Op} {f1 f2 : Byte} {p : List Word} (h1 : f1.toNat < o.f1Bound)
    (h2 : f2.toNat < o.f2Bound) (hlen : p.length = payloadWords o f1 f2) :
    ∃ i, WellFormed i = true ∧ encode i = header o f1.toNat f2.toNat :: p := by
  have hreserved (z1 : f1.toNat < 1) (z2 : f2.toNat < 1) : header o 0 0 = header o f1.toNat f2.toNat := by
    rw [Nat.lt_one_iff.mp z1, Nat.lt_one_iff.mp z2]
  cases o with
  | init =>
    have hlen' : p.length = 1 + ceilWords f1.toNat + ceilWords f2.toNat := hlen
    obtain ⟨ctr, ws, rfl⟩ := List.exists_cons_of_length_pos (l := p) (by omega)
    rw [List.length_cons] at hlen'
    refine ⟨.init f1.toNat f2.toNat ctr (ws.take (ceilWords f1.toNat)) (ws.drop (ceilWords f1.toNat)), ?_, ?_⟩
    · have hkey : ceilWords f1.toNat ≤ ws.length := by omega
      have hnonce : ws.length - ceilWords f1.toNat = ceilWords f2.toNat := by omega
      simp [WellFormed, fitsUnsigned8, f1.isLt, f2.isLt, hkey, hnonce]
    · rw [encode, List.take_append_drop]
  | setw =>
    obtain ⟨sec, hsec⟩ := (exists_sectionCode_iff _).mpr h1
    obtain ⟨v, rfl⟩ := List.length_eq_one_iff.mp hlen
    exact ⟨.setw sec f2.toInt v, fitsSigned8_toInt f2, by rw [encode, signed8_toInt, hsec]⟩
  | rotl32 =>
    obtain ⟨v, rfl⟩ := List.length_eq_one_iff.mp hlen
    exact ⟨.rotl32 v f1.toInt, fitsSigned8_toInt f1, by rw [encode, signed8_toInt, Nat.lt_one_iff.mp h2]⟩
  | getst =>
    obtain ⟨sel, hsel⟩ := (exists_selectorCode_iff _).mpr h1
    obtain rfl := List.length_eq_zero_iff.mp hlen
    exact ⟨.getst sel, rfl, by rw [encode, hsel, Nat.lt_one_iff.mp h2]⟩
  | ser =>
    obtain ⟨sel, hsel⟩ := (exists_selectorCode_iff _).mpr h1
    obtain rfl := List.length_eq_zero_iff.mp hlen
    exact ⟨.ser sel, rfl, by rw [encode, hsel, Nat.lt_one_iff.mp h2]⟩
  | incr =>
    obtain ⟨delta, rfl⟩ := List.length_eq_one_iff.mp hlen
    exact ⟨.incr delta, rfl, by rw [encode, hreserved h1 h2]⟩
  | getctr =>
    obtain rfl := List.length_eq_zero_iff.mp hlen
    exact ⟨.getctr, rfl, by rw [encode, hreserved h1 h2]⟩
  | compute =>
    obtain rfl := List.length_eq_zero_iff.mp hlen
    exact ⟨.compute, rfl, by rw [encode, hreserved h1 h2]⟩
  | add32 =>
    obtain ⟨a, b, rfl⟩ := List.length_eq_two.mp hlen
    exact ⟨.add32 a b, rfl, by rw [encode, hreserved h1 h2]⟩
  | xor32 =>
    obtain ⟨a, b, rfl⟩ := List.length_eq_two.mp hlen
    exact ⟨.xor32 a b, rfl, by rw [encode, hreserved h1 h2]⟩
  | qround =>
    obtain ⟨a, b, c, d, rfl⟩ := List.length_eq_four.mp hlen
    exact ⟨.qround a b c d, rfl, by rw [encode, hreserved h1 h2]⟩

/-- The command read off a whole packet is encoded as that packet: some command is, and the decoder, which reads encoded
commands back, reads that one. -/
theorem encode_of_decodePacket {h : Word} {p : List Word} {i : Instr} (hp : p.length + 1 = plen h)
    (hd : decodePacket h p = .ok i) : WellFormed i = true ∧ encode i = h :: p := by
  obtain ⟨o, ho⟩ := (decodePacket_isOk_iff h p).mp ⟨i, hd⟩
  have hlen : p.length = payloadWords o (f1Field h) (f2Field h) := by
    have := ho.plen_eq
    omega
  obtain ⟨j, hw, he⟩ := exists_encode_eq ho.f1 ho.f2 hlen
  rw [← ho.eq_header] at he
  have hij : j = i := Except.ok.inj ((decodePacket_encode hw he).symm.trans hd)
  exact hij ▸ ⟨hw, he⟩

/-! ### The rows of the opcode table -/

/-- Two words agree when their fields do. -/
theorem word_eq_iff_fields (v w : Word) : v = w ↔
    opField v = opField w ∧ f1Field v = f1Field w ∧ f2Field v = f2Field w ∧ f3Field v = f3Field w := by
  refine ⟨fun h => by simp [h], fun ⟨h0, h1, h2, h3⟩ => BitVec.eq_of_toNat_eq ?_⟩
  rw [header_fields v, header_fields w, h0, h1, h2, h3]

/-- A row is matched field by field. -/
theorem word_and_eq_iff_fields (h m w : Word) : h &&& m = w ↔
    opField h &&& opField m = opField w ∧ f1Field h &&& f1Field m = f1Field w ∧
      f2Field h &&& f2Field m = f2Field w ∧ f3Field h &&& f3Field m = f3Field w := by
  simp only [word_eq_iff_fields (h &&& m), opField, f1Field, f2Field, f3Field, BitVec.extractLsb'_and]

/-- Each row compares the whole opcode field with the opcode of its operation. -/
theorem opcodeTable_op : ∀ r ∈ opcodeTable,
    opField r.mask = BitVec.allOnes 8 ∧ opField r.pattern = BitVec.ofNat 8 r.op.code := by
  decide

theorem opOf_of_row {h : Word} {r : TableRow} (hr : r ∈ opcodeTable) (hm : h &&& r.mask = r.pattern) :
    opOf (opField h) = some r.op := by
  obtain ⟨hmask, hpattern⟩ := opcodeTable_op r hr
  obtain ⟨hop, -⟩ := (word_and_eq_iff_fields _ _ _).mp hm
  rw [hmask, BitVec.and_allOnes, hpattern] at hop
  rw [hop, opOf_code]

/-- Two rows disagree on a bit that both compare. -/
theorem opcodeTable_conflict : opcodeTable.Pairwise fun r q => r.pattern &&& q.mask ≠ q.pattern &&& r.mask := by
  decide

theorem opcodeTable_disjoint (h : Word) :
    opcodeTable.Pairwise fun r q => ¬ (h &&& r.mask = r.pattern ∧ h &&& q.mask = q.pattern) := by
  refine opcodeTable_conflict.imp fun {r q} hne ⟨hr, hq⟩ => hne ?_
  rw [← hr, ← hq, BitVec.and_assoc, BitVec.and_assoc, BitVec.and_comm r.mask]

theorem and_0xFE_eq_zero_iff (b : Byte) : b &&& 0xFE#8 = 0#8 ↔ b.toNat < 2 := by
  revert b; decide

theorem and_0xFF_eq_iff (b w : Byte) : b &&& 0xFF#8 = w ↔ b.toNat = w.toNat := by
  have hones : b &&& 0xFF#8 = b := BitVec.and_allOnes
  rw [hones, BitVec.toNat_inj]

/-- The legal headers of an operation are those its rows select: a field with mask 0xFF is fixed, one with mask 0 is
free, and f1 below 3 is the row with mask 0xFE and pattern 0 beside the row with pattern 2. -/
theorem isHeader_iff_row (o : Op) (h : Word) :
    o.IsHeader h ↔ ∃ r ∈ opcodeTable, r.op = o ∧ h &&& r.mask = r.pattern := by
  simp only [Op.isHeader_iff, word_and_eq_iff_fields]
  have h1 := (f1Field h).isLt
  have h2 := (f2Field h).isLt
  generalize opField h = b0, f1Field h = b1, f2Field h = b2, f3Field h = b3 at *
  cases o <;>
    simp [opcodeTable, opField, f1Field, f2Field, f3Field, and_0xFE_eq_zero_iff, and_0xFF_eq_iff, Op.code,
      Op.f1Bound, Op.f2Bound, h1, h2]
  case setw | getst | ser => omega

/-! ### Packet lengths -/

/-- The packet length as R63 states it, on the numbers of the fields. -/
theorem plen_eq_ite (h : Word) : plen h =
    if h.toNat % 256 = 0x01 then 2 + (h.toNat / 256 % 256 + 3) / 4 + (h.toNat / 65536 % 256 + 3) / 4
    else if h.toNat % 256 ∈ [0x02, 0x03, 0x11] then 2
    else if h.toNat % 256 ∈ [0x10, 0x12] then 3
    else if h.toNat % 256 = 0x13 then 5
    else 1 := by
  rw [← opField_toNat, ← f1Field_toNat, ← f2Field_toNat]
  cases hop : opOf (opField h) with
  | some o =>
    rw [(opOf_eq_some_iff _ o).mp hop]
    cases o <;> simp [plen, hop, payloadWords, ceilWords, Op.code]
    case init => omega
  | none =>
    have hnone : ¬ ∃ o : Op, (opField h).toNat = o.code :=
      fun ⟨o, ho⟩ => nomatch hop.symm.trans ((opOf_eq_some_iff _ o).mpr ho)
    rw [Op.exists_code_iff] at hnone
    simp only [List.mem_cons, List.not_mem_nil, or_false, not_or] at hnone
    simp [plen, hop, hnone]

theorem plen_le (h : Word) : plen h ≤ 130 := by
  have h1 := (f1Field h).isLt
  have h2 := (f2Field h).isLt
  unfold plen
  split
  · next o _ => cases o <;> simp only [payloadWords, ceilWords] <;> omega
  · decide

end Sys2Proof

/-! ### Steps on whole packets, and host sequences -/

namespace Sys2Proof.Machine

/-- A whole packet at the head of the stream of a ready engine is consumed, and answered, in one step (R63). -/
theorem step_consumes_packet {s : State} {p rest : List Word} (hs : s.Ready) (hp : IsPacket p)
    (harr : s.held ++ s.cmd = p ++ rest) : ∃ t, step s = .next t ∧ t.held = [] ∧ t.cmd = rest := by
  rw [← State.arrived_eq] at harr
  obtain ⟨i, hd⟩ | ⟨why, hd⟩ := decode_isPacket_append hp
  · obtain ⟨t, ht⟩ := exec_total i (s.consume rest)
    have hin := exec_sameInputs ht
    exact ⟨t, (step_command hs (harr ▸ hd rest)).trans ht, hin.held, hin.cmd⟩
  · exact ⟨_, step_illegal hs (harr ▸ hd rest), rfl, rfl⟩

theorem readResponse_ok {payload : List Word} (hlen : payload.length < 256) :
    readResponse (statusWord 0 payload.length :: payload) = .ok payload := by
  have hzero : 0 < 256 := by decide
  simp [readResponse, statusField_statusWord hzero hlen, countField_statusWord hzero hlen]

theorem readResponse_error (e : ErrorCode) : readResponse [statusWord e.code 0] = .error (.raised e) := by
  cases e <;> rfl

theorem transact_of_answered {i : Instr} {e u : State} {payload : List Word} (he : e.idle = true)
    (hw : WellFormed i = true) (hx : exec i e = .next (u.answered payload)) (hu : u.rsp = [])
    (hlen : payload.length < 256) : transact i e = (.ok payload, u) := by
  rw [transact_of_exec he hw hx, State.answered_rsp, hu, List.nil_append, readResponse_ok hlen]
  rw [← hu]
  rfl

theorem transact_of_failed {i : Instr} {e : State} {x : ErrorCode} (he : e.idle = true)
    (hw : WellFormed i = true) (hx : exec i e = .next (e.failed x)) : transact i e = (.error (.raised x), e) := by
  obtain ⟨-, -, hrsp, -⟩ := e.idle_iff.mp he
  rw [transact_of_exec he hw hx, State.failed_rsp, hrsp, List.nil_append, readResponse_error, ← hrsp]
  rfl

/-- COMPUTE and SER final on an idle engine give the block of its S as bytes (R128, R141). -/
theorem keystreamBlock_of_idle {e : State} {w f : Block} (he : e.idle = true) (hw : w = rounds e.S)
    (hf : f = addBlocks e.S w) : keystreamBlock e = (.ok (serialize f), e.publish w f) := by
  obtain ⟨-, -, hrsp, -⟩ := e.idle_iff.mp he
  have hexec : exec .compute e = .next ((e.publish w f).answered []) := by
    rw [hf, hw]
    rfl
  have hcompute : transact .compute e = (.ok [], e.publish w f) :=
    transact_of_answered he rfl hexec hrsp (by decide)
  have hexec' : exec (.ser .final) (e.publish w f) = .next ((e.publish w f).answered f.toList) := by
    rw [← wordsOfBytes_serialize]
    rfl
  have hidle : (e.publish w f).idle = true := he
  have hser : transact (.ser .final) (e.publish w f) = (.ok f.toList, e.publish w f) :=
    transact_of_answered hidle rfl hexec' hrsp (by simp)
  simp only [keystreamBlock, hcompute, hser]
  rfl

/-- NEXTBLOCK where INCR 1 does not overflow: the block of the advanced counter (R73, R144). -/
theorem nextBlock_of_not_overflows {e : State} (he : e.idle = true) (hno : counterOverflows e.counter 1 = false) :
    nextBlock e = keystreamBlock (e.writeS 12 (add32 e.counter 1)) := by
  obtain ⟨-, -, hrsp, -⟩ := e.idle_iff.mp he
  have hexec : exec (.incr 1) e = .next ((e.writeS 12 (add32 e.counter 1)).answered []) :=
    if_neg (Bool.eq_false_iff.mp hno)
  have hincr : transact (incrDefault none) e = (.ok [], e.writeS 12 (add32 e.counter 1)) :=
    transact_of_answered he rfl hexec hrsp (by decide)
  simp only [nextBlock, hincr]

/-- NEXTBLOCK where INCR 1 overflows: it stops at the first response (R73, R164). -/
theorem nextBlock_of_overflows {e : State} (he : e.idle = true) (hover : counterOverflows e.counter 1 = true) :
    nextBlock e = (.error (.raised .counterOverflow), e) := by
  have hexec : exec (.incr 1) e = .next (e.failed .counterOverflow) := if_pos hover
  have hincr : transact (incrDefault none) e = (.error (.raised .counterOverflow), e) :=
    transact_of_failed he rfl hexec
  simp only [nextBlock, hincr]

end Sys2Proof.Machine

/-! ### The obligations -/

namespace Sys2Proof.Spec

open Sys2Proof.Machine

/-- The four cases of R69 leave the legal headers of the eleven operations and no others: case 1 leaves the eleven
opcodes, and for each of them the other cases are the bounds on its fields. -/
theorem not_illegalHeader_iff (h : Word) : ¬ IllegalHeader h ↔ ∃ o : Op, o.IsHeader h := by
  simp only [IllegalHeader, Op.isHeader_iff, ← opField_toNat, ← f1Field_toNat, ← f2Field_toNat, ← f3Field_toNat]
  have h1 := (f1Field h).isLt
  have h2 := (f2Field h).isLt
  generalize (opField h).toNat = op, (f1Field h).toNat = f1, (f2Field h).toNat = f2, (f3Field h).toNat = f3 at *
  constructor
  · intro hlegal
    obtain ⟨o, rfl⟩ := (Op.exists_code_iff op).mpr (not_not.mp (not_or.mp hlegal).1)
    refine ⟨o, rfl, ?_⟩
    cases o <;> simp [Op.code, Op.f1Bound, Op.f2Bound] at hlegal ⊢ <;> omega
  · rintro ⟨o, rfl, hb1, hb2, hb3⟩
    cases o <;> simp [Op.code, Op.f1Bound, Op.f2Bound] at hb1 hb2 ⊢ <;> omega

/-- Settles O1: the packet of a well-formed command is whole, and its fields and payload give the operands back. -/
theorem decodeOfEncode : Obligations.DecodeOfEncode := fun _ rest hw => decode_encode_append hw rest

/-- Settles O2: what the decoder reads is a whole legal packet, and every such packet is the encoding of a well-formed
command, which is then the one read. -/
theorem encodeOfDecode : Obligations.EncodeOfDecode := by
  intro ws i rest hd
  obtain ⟨h, p, rfl, hp, hok⟩ := decode_command_cases hd
  obtain ⟨hw, he⟩ := encode_of_decodePacket hp hok
  exact ⟨hw, by rw [he, List.cons_append]⟩

/-- Wherever a whole packet with an illegal header stands at the head, it is answered as R69 says. -/
theorem answersIllegal_of_illegalHeader {h : Word} (hill : IllegalHeader h) : AnswersIllegal h := by
  intro s p rest hs harr hp
  have hno : ¬ ∃ o : Op, o.IsHeader h := fun ho => (not_illegalHeader_iff h).mpr ho hill
  obtain ⟨why, hd⟩ := decodePacket_error_of_not_isHeader hno p
  have hdec : decode s.arrived = .illegal why rest := by rw [State.arrived_eq, harr, decode_packet hp, hd]
  exact step_illegal hs hdec

/-- Settles O3: a header is illegal exactly when it is no operation's legal header, and the decoder refuses those. -/
theorem illegalHeadersAnswered : Obligations.IllegalHeadersAnswered := by
  refine ⟨fun _ => answersIllegal_of_illegalHeader, fun h p hlegal => ?_, ⟨.inl ?_, rfl⟩, .inl ?_, rfl⟩
  · exact (decodePacket_isOk_iff h p).mpr ((not_illegalHeader_iff h).mp hlegal)
  · decide
  · decide

/-- Settles O4: the rows of an operation select its legal headers; a row fixes the opcode field; and two rows disagree
on a bit that both compare. -/
theorem opcodeTableExactAndDisjoint : Obligations.OpcodeTableExactAndDisjoint := by
  refine ⟨fun h p => ?_, fun h r hr hm => opOf_of_row hr hm, opcodeTable_disjoint⟩
  rw [decodePacket_isOk_iff]
  simp only [isHeader_iff_row]
  exact ⟨fun ⟨_, r, hr, _, hm⟩ => ⟨r, hr, hm⟩, fun ⟨r, hr, hm⟩ => ⟨r.op, r, hr, rfl, hm⟩⟩

/-- Settles O5: legal or illegal, a whole packet is consumed in one step, and its length is a function of op, f1 and
f2. -/
theorem packetLengthFromHeader : Obligations.PacketLengthFromHeader :=
  ⟨fun _ h p _ hs harr hp => step_consumes_packet (p := h :: p) hs hp harr,
    fun h => ⟨plen_eq_ite h, plen_pos h, plen_le h⟩⟩

/-- Settles O50: INCR 1 writes word 12 or fails, and the keystream sequence then reads the block of the S it finds. -/
theorem nextBlockAdvancesOrOverflows : Obligations.NextBlockAdvancesOrOverflows := by
  refine ⟨fun e he hlt => ?_, fun e he hmax => ?_⟩
  · have hsum : e.counter.toNat + (1 : Word).toNat < 2 ^ 32 := Nat.succ_lt_succ hlt
    have hidle : (e.writeS 12 (add32 e.counter 1)).idle = true := he
    refine ⟨e.S.setIfInBounds 12 (add32 e.counter 1), _, _, ?_, fun k hk => ?_, isBlockOf_rounds _, ?_⟩
    · rw [Vector.getElem_setIfInBounds_self, add32_toNat_of_lt hsum]
      rfl
    · exact Vector.getElem_setIfInBounds_ne _ fun heq => hk (Fin.ext heq.symm)
    · have hno := (counterOverflows_false_iff _ _).mpr hsum
      exact (nextBlock_of_not_overflows he hno).trans (keystreamBlock_of_idle hidle rfl rfl)
  · exact nextBlock_of_overflows he (by rw [State.counter_eq, hmax]; decide)

end Sys2Proof.Spec

/-! ## Proofs for 40_state_engine.md: INIT, SETW, INCR and GETCTR -/

namespace Sys2Proof

/-- A packet that is the encoder's packet of a command, with nothing behind it, is read as that command. -/
theorem decode_of_encode_eq {i : Instr} {ws : List Word} (he : encode i = ws) (hw : WellFormed i = true) :
    decode ws = .command i [] := by
  rw [← he, ← List.append_nil (encode i), decode_encode_append hw]

theorem signed8_eq_emod (n : Int) : signed8 n = (n % 256).toNat := BitVec.toNat_ofInt n

/-- INIT with lengths that fit their fields and the words they call for has an encoding (R63, R64). -/
theorem wellFormed_init {klen nlen : Nat} {ctr : Word} {key nonce : List Word} (hk : klen < 256) (hn : nlen < 256)
    (hkey : key.length = ceilWords klen) (hnonce : nonce.length = ceilWords nlen) :
    WellFormed (.init klen nlen ctr key nonce) = true := by
  simp [WellFormed, fitsUnsigned8, hk, hn, hkey, hnonce]

/-- Where both fields are reserved, an operation has one legal header (R62, R69). -/
theorem Op.IsHeader.eq_of_reserved {o : Op} {h : Word} (ho : o.IsHeader h) (h1 : o.f1Bound = 1)
    (h2 : o.f2Bound = 1) : h = header o 0 0 := by
  have hf1 := ho.f1
  have hf2 := ho.f2
  rw [h1, Nat.lt_one_iff] at hf1
  rw [h2, Nat.lt_one_iff] at hf2
  rw [ho.eq_header, hf1, hf2]

end Sys2Proof

namespace Sys2Proof.Machine

/-! ### The array that INIT makes, and the words that SETW reaches -/

theorem constructedBlock_key (klen nlen : Nat) (ctr : Word) (key nonce : List Word) (j : Fin 8) :
    (constructedBlock klen nlen ctr key nonce)[4 + j.val] = suppliedWord key klen j := by
  fin_cases j <;> rfl

theorem constructedBlock_nonce (klen nlen : Nat) (ctr : Word) (key nonce : List Word) (j : Fin 3) :
    (constructedBlock klen nlen ctr key nonce)[13 + j.val] = suppliedWord nonce nlen j := by
  fin_cases j <;> rfl

/-- Every section lies inside S (R42). -/
theorem section_end_le (sec : Section) : sectionBase sec + sectionLength sec ≤ 16 := by
  cases sec <;> decide

theorem toList_setIfInBounds_self {b : Block} {n : Nat} (hn : n < 16) (v : Word) :
    (b.setIfInBounds n v).toList[n]? = some v := by
  simp [hn]

/-! ### The two ends of INIT, SETW and INCR -/

variable {s : State}

theorem exec_init_of_lengthOk {klen nlen : Nat} {ctr : Word} {key nonce : List Word}
    (hk : lengthOk klen Config.keyWords = true) (hn : lengthOk nlen Config.nonceWords = true) :
    exec (.init klen nlen ctr key nonce) s =
      .next ((s.construct (constructedBlock klen nlen ctr key nonce)).answered []) :=
  if_pos (by rw [hk, hn]; rfl)

theorem exec_init_of_not_lengthOk {klen nlen : Nat} {ctr : Word} {key nonce : List Word}
    (hbad : ¬ (lengthOk klen Config.keyWords = true ∧ lengthOk nlen Config.nonceWords = true)) :
    exec (.init klen nlen ctr key nonce) s = .next (s.failed .lengthError) :=
  if_neg (by rwa [Bool.and_eq_true])

theorem exec_setw_of_inRange {sec : Section} {idx : Int} {v : Word} (hin : inRange idx (sectionLength sec) = true) :
    exec (.setw sec idx v) s = .next ((s.writeS (sectionBase sec + idx.toNat) v).answered []) :=
  if_pos hin

theorem exec_setw_of_not_inRange {sec : Section} {idx : Int} {v : Word}
    (hout : ¬ inRange idx (sectionLength sec) = true) :
    exec (.setw sec idx v) s = .next (s.failed .indexError) :=
  if_neg hout

theorem exec_incr_of_overflows {delta : Word} (hover : counterOverflows s.counter delta = true) :
    exec (.incr delta) s = .next (s.failed .counterOverflow) :=
  if_pos hover

theorem exec_incr_of_not_overflows {delta : Word} (hno : counterOverflows s.counter delta = false) :
    exec (.incr delta) s = .next ((s.writeS 12 (add32 s.counter delta)).answered []) :=
  if_neg (Bool.eq_false_iff.mp hno)

end Sys2Proof.Machine

/-! ### The obligations -/

namespace Sys2Proof.Spec

open Sys2Proof.Machine

/-- A header with the operation's opcode that is not one of its legal headers is legal for no operation. -/
theorem answersIllegal_of_not_isHeader {o : Op} {h : Word} (hop : h.toNat % 256 = o.code) (hno : ¬ o.IsHeader h) :
    AnswersIllegal h := by
  refine answersIllegal_of_illegalHeader (by_contra fun hlegal => ?_)
  obtain ⟨o', ho'⟩ := (not_illegalHeader_iff h).mp hlegal
  have hop' : opOf (opField h) = some o := (opOf_eq_some_iff _ o).mpr ((opField_toNat h).trans hop)
  obtain rfl : o' = o := Option.some.inj (ho'.opOf_eq.symm.trans hop')
  exact hno ho'

/-- An operation that reserves f1 and f2 takes no other header than its opcode alone. -/
theorem answersIllegal_of_reserved {o : Op} {h : Word} (h1 : o.f1Bound = 1) (h2 : o.f2Bound = 1)
    (hop : h.toNat % 256 = o.code) (hne : h ≠ header o 0 0) : AnswersIllegal h :=
  answersIllegal_of_not_isHeader hop fun ho => hne (ho.eq_of_reserved h1 h2)

/-- INCR answers CounterOverflow exactly where the sum is no word: its other answer is OK. -/
theorem answers_counterOverflow_iff (delta : Word) (s : State) :
    Answers (.incr delta) s s [0x00000004] ↔ 2 ^ 32 ≤ s.S[12].toNat + delta.toNat := by
  rw [← counterOverflows_iff, ← State.counter_eq]
  constructor
  · intro h
    obtain ⟨hover, -⟩ | ⟨-, ht⟩ := execIncr_cases h
    · exact hover
    · have hrsp : s.rsp ++ [0x00000004] = s.rsp ++ [statusWord 0 0] := congrArg State.rsp ht
      exact absurd (List.append_cancel_left hrsp) (by decide)
  · exact exec_incr_of_overflows

/-- Settles O22: the packet is INIT's encoding; the two length checks decide between the constructed array and
LengthError. -/
theorem initConstructsOrRaises : Obligations.InitConstructsOrRaises := by
  refine ⟨fun klen nlen ctr key nonce hk hn hkey hnonce => ?_,
    fun klen nlen ctr key nonce s hk4 hk hn4 hn _ _ => ?_, fun klen nlen ctr key nonce s hbad => ?_,
    fun h hop hf3 => ?_⟩
  · exact stepRunsDecodedCommand _ (wellFormed_init hk hn hkey hnonce)
  · refine ⟨constructedBlock klen nlen ctr key nonce, ⟨rfl, rfl, rfl, rfl⟩, constructedBlock_key _ _ _ _ _, rfl,
      constructedBlock_nonce _ _ _ _ _, ?_⟩
    exact exec_init_of_lengthOk ((lengthOk_iff _ _).mpr ⟨hk4, hk⟩) ((lengthOk_iff _ _).mpr ⟨hn4, hn⟩)
  · refine exec_init_of_not_lengthOk ?_
    simp only [lengthOk_iff, Config.keyWords, Config.nonceWords]
    omega
  · exact answersIllegal_of_not_isHeader (o := .init) hop fun ho => hf3 ((f3Field_toNat h).symm.trans ho.f3)

/-- Settles O23: the packet is SETW's encoding, index modulo 256; the range check decides between one write inside S and
IndexError. -/
theorem setwWritesOneWordOrRaises : Obligations.SetwWritesOneWordOrRaises := by
  refine ⟨fun sec code idx v hcode hlo hhi => ?_, fun sec idx v s hidx => ?_, fun sec idx v s hout => ?_,
    fun h hop hbad => ?_⟩
  · obtain rfl : code = sectionCode sec := by cases sec <;> simpa [sectionCode] using hcode
    rw [← signed8_eq_emod]
    exact stepRunsDecodedCommand (.setw sec idx v) ((fitsSigned8_iff idx).mpr ⟨hlo, hhi⟩)
  · simp only [sectionRange_eq] at hidx ⊢
    have hend := section_end_le sec
    refine ⟨s.S.setIfInBounds (sectionBase sec + idx) v, toList_setIfInBounds_self (by omega) v, fun k hk => ?_, ?_⟩
    · exact Vector.getElem_setIfInBounds_ne _ hk.symm
    · exact exec_setw_of_inRange ((inRange_iff _ _).mpr ⟨Int.natCast_nonneg idx, Int.ofNat_lt.mpr hidx⟩)
  · refine exec_setw_of_not_inRange ?_
    rw [inRange_iff]
    simp only [sectionRange_eq] at hout
    omega
  · refine answersIllegal_of_not_isHeader (o := .setw) hop fun ho => ?_
    have hf1 : h.toNat / 256 % 256 < 3 := f1Field_toNat h ▸ ho.f1
    have hf3 : h.toNat / 16777216 = 0 := f3Field_toNat h ▸ ho.f3
    omega

/-- Settles O24: the overflow test decides between a write of word 12, where the sum does not wrap, and
CounterOverflow. -/
theorem incrAddsOrOverflows : Obligations.IncrAddsOrOverflows := by
  refine ⟨fun delta => stepRunsDecodedCommand (.incr delta) rfl, fun delta s hle => ?_,
    fun delta s hover => (answers_counterOverflow_iff delta s).mpr hover,
    fun h hop hne => answersIllegal_of_reserved (o := .incr) rfl rfl hop hne⟩
  have hlt : s.S[12].toNat + delta.toNat < 2 ^ 32 := Nat.lt_succ_of_le hle
  refine ⟨s.S.setIfInBounds 12 (add32 s.counter delta), ?_, fun k hk => ?_, ?_⟩
  · rw [Vector.getElem_setIfInBounds_self]
    exact add32_toNat_of_lt hlt
  · exact Vector.getElem_setIfInBounds_ne _ fun heq => hk (Fin.ext heq.symm)
  · exact exec_incr_of_not_overflows ((counterOverflows_false_iff _ _).mpr hlt)

/-- Settles O25: each form is the comparison of the sum with 2^32, written on words. -/
theorem incrOverflowEquivalentForms : Obligations.IncrOverflowEquivalentForms := by
  intro delta s
  simp only [answers_counterOverflow_iff]
  generalize s.S[12] = ctr
  refine ⟨?_, ?_, ?_⟩
  · rw [BitVec.natCast_eq_ofNat]
    bv_omega
  · bv_omega
  · simp [BitVec.carry, Nat.mod_eq_of_lt ctr.isLt, Nat.mod_eq_of_lt delta.isLt]

/-- Settles O26: GETCTR has one answer, and one legal header. -/
theorem getctrAnswersCounter : Obligations.GetctrAnswersCounter :=
  ⟨stepRunsDecodedCommand .getctr rfl, fun _ => rfl,
    fun _ hop hne => answersIllegal_of_reserved (o := .getctr) rfl rfl hop hne⟩

/-- Settles O6: each packet is the encoder's packet of its command. -/
theorem examplePacketsDecode : Obligations.ExamplePacketsDecode :=
  ⟨decode_of_encode_eq (by decide) rfl, decode_of_encode_eq (by decide) rfl, decode_of_encode_eq (by decide) rfl,
    decode_of_encode_eq (by decide) rfl, decode_of_encode_eq (by decide) rfl, decode_of_encode_eq (by decide) rfl⟩

end Sys2Proof.Spec

/-! ## Proofs for 41_arx_unit.md: add32, rotl32 and xor32, and ADD32, ROTL32 and XOR32 -/

namespace Sys2Proof.Machine

/-! ### The three functions -/

theorem add32_toNat (a b : Word) : (add32 a b).toNat = (a.toNat + b.toNat) % 2 ^ 32 := BitVec.toNat_add a b

theorem getLsbD_xor32 (a b : Word) (i : Nat) : (xor32 a b).getLsbD i = (a.getLsbD i != b.getLsbD i) :=
  BitVec.getLsbD_xor

/-- A left shift on 32 bits drops the upper `n` bits and leaves the lower `n` free (R102). -/
theorem mul_two_pow_mod_word (v : Nat) {n : Nat} (hn : n ≤ 32) :
    v * 2 ^ n % 2 ^ 32 = v % 2 ^ (32 - n) * 2 ^ n := by
  rw [← Nat.mul_mod_mul_right, ← Nat.pow_add, Nat.sub_add_cancel hn]

/-- The upper `n` bits of a word fit the place that the shift leaves free. -/
theorem word_div_lt_two_pow (v : Word) {n : Nat} (hn : n ≤ 32) : v.toNat / 2 ^ (32 - n) < 2 ^ n := by
  apply Nat.div_lt_of_lt_mul
  rw [← Nat.pow_add, Nat.sub_add_cancel hn]
  exact v.isLt

/-- The two slices of R102 do not overlap, so their union, the circular rotation, is their sum. -/
theorem toNat_rotateLeft_eq_sum (v : Word) {n : Nat} (hn : n < 32) :
    (v.rotateLeft n).toNat = v.toNat * 2 ^ n % 2 ^ 32 + v.toNat / 2 ^ (32 - n) := by
  rw [BitVec.toNat_rotateLeft, Nat.mod_eq_of_lt hn, Nat.shiftLeft_eq, Nat.shiftRight_eq_div_pow,
    mul_two_pow_mod_word _ hn.le, ← Nat.shiftLeft_eq,
    Nat.shiftLeft_add_eq_or_of_lt (word_div_lt_two_pow v hn.le)]

theorem rotl32_eq_rotateLeft (v : Word) {n : Nat} (hn : n < 32) : rotl32 v n = v.rotateLeft n := by
  rw [rotl32, ← toNat_rotateLeft_eq_sum v hn, BitVec.ofNat_toNat, BitVec.setWidth_eq]

/-- The sum of R102's arithmetic form is a word: nothing is cut off. -/
theorem rotl32_toNat (v : Word) {n : Nat} (hn : n < 32) :
    (rotl32 v n).toNat = v.toNat * 2 ^ n % 2 ^ 32 + v.toNat / 2 ^ (32 - n) := by
  rw [rotl32_eq_rotateLeft v hn, toNat_rotateLeft_eq_sum v hn]

/-- The bits below `32 - n` move up by `n`, the upper `n` bits come round to the bottom (R102). -/
theorem getLsbD_rotl32 (v : Word) {n i : Nat} (hn : n < 32) (hi : i < 32) :
    (rotl32 v n).getLsbD ((i + n) % 32) = v.getLsbD i := by
  rw [rotl32_eq_rotateLeft v hn, BitVec.getLsbD_rotateLeft, Nat.mod_eq_of_lt hn]
  obtain hlow | hhigh := Nat.lt_or_ge (i + n) 32
  · rw [Nat.mod_eq_of_lt hlow]
    simp [hlow]
  · have hround : (i + n) % 32 = i + n - 32 := by omega
    have hlt : i + n - 32 < n := by omega
    have hback : 32 - n + (i + n - 32) = i := by omega
    rw [hround]
    simp [hlt, hback]

theorem rotl32_zero (v : Word) : rotl32 v 0 = v := by
  apply BitVec.eq_of_getLsbD_eq
  intro i hi
  simpa [Nat.mod_eq_of_lt hi] using getLsbD_rotl32 v (n := 0) (by decide) hi

/-- A bit moved by `n` and then by `32 - n` has gone once round (R102). -/
theorem rotl32_rotl32_sub (v : Word) {n : Nat} (hpos : 0 < n) (hn : n < 32) :
    rotl32 (rotl32 v n) (32 - n) = v := by
  apply BitVec.eq_of_getLsbD_eq
  intro i hi
  have hround : ((i + n) % 32 + (32 - n)) % 32 = i := by omega
  calc (rotl32 (rotl32 v n) (32 - n)).getLsbD i
      = (rotl32 (rotl32 v n) (32 - n)).getLsbD (((i + n) % 32 + (32 - n)) % 32) := by rw [hround]
    _ = (rotl32 v n).getLsbD ((i + n) % 32) :=
        getLsbD_rotl32 _ (Nat.sub_lt (by decide) hpos) (Nat.mod_lt _ (by decide))
    _ = v.getLsbD i := getLsbD_rotl32 v hn hi

/-! ### The two ends of ROTL32 -/

variable {s : State}

theorem exec_rotl32_of_inRange {v : Word} {n : Int} (hin : inRange n 32 = true) :
    exec (.rotl32 v n) s = .next (s.answered [rotl32 v n.toNat]) :=
  if_pos hin

theorem exec_rotl32_of_not_inRange {v : Word} {n : Int} (hout : ¬ inRange n 32 = true) :
    exec (.rotl32 v n) s = .next (s.failed .rangeError) :=
  if_neg hout

end Sys2Proof.Machine

/-! ### The obligations -/

namespace Sys2Proof.Spec

open Sys2Proof.Machine

/-- An amount outside [0, 32), 32 included, is refused (R102, R103). -/
theorem answers_rangeError_of_outside {n : Int} (hout : n < 0 ∨ 32 ≤ n) (v : Word) (s : State) :
    Answers (.rotl32 v n) s s [0x00000002] := by
  refine exec_rotl32_of_not_inRange ?_
  rw [inRange_iff]
  omega

/-- Settles O10: ADD32 has one answer, the word of `add32`, and one legal header. -/
theorem add32AnswersSum : Obligations.Add32AnswersSum :=
  ⟨fun a b => stepRunsDecodedCommand (.add32 a b) rfl, fun a b _ => ⟨add32 a b, add32_toNat a b, rfl⟩,
    fun _ hop hne => answersIllegal_of_reserved (o := .add32) rfl rfl hop hne⟩

/-- Settles O11: the packet is ROTL32's encoding, amount modulo 256; the range check decides between the rotated word
and RangeError. -/
theorem rotl32RotatesOrRaises : Obligations.Rotl32RotatesOrRaises := by
  refine ⟨fun v n hlo hhi => ?_, fun v n s hn => ?_, fun v _ s hout => answers_rangeError_of_outside hout v s,
    fun h hop hbad => ?_⟩
  · rw [← signed8_eq_emod]
    exact stepRunsDecodedCommand (.rotl32 v n) ((fitsSigned8_iff n).mpr ⟨hlo, hhi⟩)
  · refine ⟨rotl32 v n, fun _ hi => getLsbD_rotl32 v hn hi, ?_⟩
    exact exec_rotl32_of_inRange ((inRange_iff _ _).mpr ⟨Int.natCast_nonneg n, Int.ofNat_lt.mpr hn⟩)
  · refine answersIllegal_of_not_isHeader (o := .rotl32) hop fun ho => ?_
    have hf2 : h.toNat / 65536 % 256 < 1 := f2Field_toNat h ▸ ho.f2
    have hf3 : h.toNat / 16777216 = 0 := f3Field_toNat h ▸ ho.f3
    omega

/-- Settles O12: XOR32 has one answer, the word of `xor32`, and one legal header. -/
theorem xor32AnswersXor : Obligations.Xor32AnswersXor :=
  ⟨fun a b => stepRunsDecodedCommand (.xor32 a b) rfl,
    fun a b _ => ⟨xor32 a b, fun i _ => getLsbD_xor32 a b i, rfl⟩,
    fun _ hop hne => answersIllegal_of_reserved (o := .xor32) rfl rfl hop hne⟩

/-- Settles O15: the bit law comes from the two slices side by side, and the inverse law from the bit law. -/
theorem rotl32Laws : Obligations.Rotl32Laws := by
  refine ⟨fun v n i hn hi => getLsbD_rotl32 v hn hi, fun v n hn => rotl32_toNat v hn, fun v n _ hn => ?_, rotl32_zero,
    fun v n hpos hle => rotl32_rotl32_sub v hpos (Nat.lt_succ_of_le hle),
    fun v n s hout => answers_rangeError_of_outside hout v s⟩
  rw [rotl32_toNat v hn, mul_two_pow_mod_word _ hn.le]

/-- Settles O14: `add32` is the addition of 32-bit words. -/
theorem add32Laws : Obligations.Add32Laws :=
  ⟨add32_toNat, BitVec.add_comm, BitVec.add_assoc, fun a => ⟨BitVec.add_zero a, BitVec.zero_add a⟩, by decide⟩

/-- Settles O16: `xor32` is the exclusive or of 32-bit words. -/
theorem xor32Laws : Obligations.Xor32Laws :=
  ⟨fun a b i _ => getLsbD_xor32 a b i, BitVec.xor_comm, BitVec.xor_assoc,
    fun _ => ⟨BitVec.xor_zero, BitVec.zero_xor⟩, fun _ => BitVec.xor_self⟩

end Sys2Proof.Spec

/-! ## Proofs for 42_quarter_round.md: qr as four add-xor-rotate steps, and QROUND -/

namespace Sys2Proof.Machine

/-! ### One step, and its inverse -/

/-- Three of the twelve steps of R110: `a += b; d ^= a; d <<<= n`. The pairs (a, b) and (c, d) change places, so that
the next three steps of R110, on c, d and b, are this function again. -/
def arxStep (n : Nat) (q : Quad) : Quad :=
  ⟨q.c, rotl32 (xor32 q.d (add32 q.a q.b)) n, add32 q.a q.b, q.b⟩

/-- The steps of `arxStep` undone, the last one first. -/
def arxUnstep (n : Nat) (q : Quad) : Quad :=
  ⟨q.c - q.d, q.d, q.a, xor32 (rotl32 q.b (32 - n)) q.c⟩

theorem qr_eq_arxSteps (q : Quad) : qr q = arxStep 7 (arxStep 8 (arxStep 12 (arxStep 16 q))) := rfl

theorem arxStep_eq_rotateLeft (q : Quad) {n : Nat} (hn : n < 32) :
    arxStep n q = ⟨q.c, (q.d ^^^ (q.a + q.b)).rotateLeft n, q.a + q.b, q.b⟩ := by
  rw [arxStep, rotl32_eq_rotateLeft _ hn, add32, xor32]

theorem xor32_xor32_cancel (a b : Word) : xor32 (xor32 a b) b = a := by
  rw [xor32, xor32, BitVec.xor_assoc, BitVec.xor_self, BitVec.xor_zero]

/-- Rotation by `32 - n` and then by `n` goes once round, as the other way about (R102). -/
theorem rotl32_sub_rotl32 (v : Word) {n : Nat} (hpos : 0 < n) (hn : n < 32) :
    rotl32 (rotl32 v (32 - n)) n = v := by
  have h := rotl32_rotl32_sub v (Nat.sub_pos_of_lt hn) (Nat.sub_lt (by decide) hpos)
  rwa [Nat.sub_sub_self hn.le] at h

theorem arxUnstep_arxStep (q : Quad) {n : Nat} (hpos : 0 < n) (hn : n < 32) : arxUnstep n (arxStep n q) = q := by
  have ha : add32 q.a q.b - q.b = q.a := BitVec.add_sub_cancel q.a q.b
  simp only [arxUnstep, arxStep, ha, rotl32_rotl32_sub _ hpos hn, xor32_xor32_cancel]

theorem arxStep_arxUnstep (q : Quad) {n : Nat} (hpos : 0 < n) (hn : n < 32) : arxStep n (arxUnstep n q) = q := by
  have hc : add32 (q.c - q.d) q.d = q.c := BitVec.sub_add_cancel q.c q.d
  simp only [arxUnstep, arxStep, hc, xor32_xor32_cancel, rotl32_sub_rotl32 _ hpos hn]

theorem arxStep_bijective {n : Nat} (hpos : 0 < n) (hn : n < 32) : Function.Bijective (arxStep n) :=
  Function.bijective_iff_has_inverse.mpr
    ⟨arxUnstep n, fun q => arxUnstep_arxStep q hpos hn, fun q => arxStep_arxUnstep q hpos hn⟩

theorem qr_bijective : Function.Bijective qr := by
  have h16 := arxStep_bijective (n := 16) (by decide) (by decide)
  have h12 := arxStep_bijective (n := 12) (by decide) (by decide)
  have h8 := arxStep_bijective (n := 8) (by decide) (by decide)
  have h7 := arxStep_bijective (n := 7) (by decide) (by decide)
  rw [funext qr_eq_arxSteps]
  exact h7.comp (h8.comp (h12.comp h16))

theorem qr_zero : qr ⟨0, 0, 0, 0⟩ = ⟨0, 0, 0, 0⟩ := by decide

/-! ### The one end of QROUND -/

theorem exec_qround (q : Quad) (s : State) : exec (.qround q.a q.b q.c q.d) s =
    .next (s.emit [0x00000400, (qr q).a, (qr q).b, (qr q).c, (qr q).d]) := by
  have hstatus : statusWord 0 4 = 0x00000400 := by decide
  rw [← hstatus]
  rfl

end Sys2Proof.Machine

/-! ### The obligations -/

namespace Sys2Proof.Spec

open Sys2Proof.Machine

/-- Settles O13: QROUND has one answer, the four words of four add-xor-rotate steps, and one legal header. -/
theorem qroundAnswersQuarterRound : Obligations.QroundAnswersQuarterRound := by
  refine ⟨fun a b c d => stepRunsDecodedCommand (.qround a b c d) rfl, fun a b c d s => ?_,
    fun _ hop hne => answersIllegal_of_reserved (o := .qround) rfl rfl hop hne⟩
  have h := exec_qround ⟨a, b, c, d⟩ s
  simp only [qr_eq_arxSteps, arxStep_eq_rotateLeft, Nat.reduceLT] at h
  exact h

/-- Settles O17: `qr` is a composition of four steps, and each of them has an inverse. -/
theorem quarterRoundBijective : Obligations.QuarterRoundBijective := ⟨qr_bijective, qr_zero⟩

end Sys2Proof.Spec

/-! ## Proofs for 43_block_generator.md: quarter-rounds inside an array, the rounds, and COMPUTE -/

namespace Sys2Proof.Machine

/-! ### Four words of an array -/

/-- The words of an array at four indices. -/
def quadAt (x : Block) (i j k l : Fin 16) : Quad := ⟨x[i], x[j], x[k], x[l]⟩

/-- The array with the words of `q` at four indices; `qrAt` is this with the quarter-round of the words there. -/
def setQuadAt (x : Block) (i j k l : Fin 16) (q : Quad) : Block :=
  (((x.set i q.a).set j q.b).set k q.c).set l q.d

theorem qrAt_eq_setQuadAt (x : Block) (i j k l : Fin 16) :
    qrAt x i j k l = setQuadAt x i j k l (qr (quadAt x i j k l)) := rfl

section

variable {i j k l : Fin 16}

theorem getElem_set_ne {m : Fin 16} (x : Block) (v : Word) (h : m ≠ i) : (x.set i v)[m] = x[m] :=
  Vector.getElem_set_ne _ _ (Fin.val_ne_of_ne h.symm)

theorem setQuadAt_getElem_ne {m : Fin 16} (x : Block) (q : Quad) (hi : m ≠ i) (hj : m ≠ j) (hk : m ≠ k)
    (hl : m ≠ l) : (setQuadAt x i j k l q)[m] = x[m] := by
  rw [setQuadAt, getElem_set_ne _ _ hl, getElem_set_ne _ _ hk, getElem_set_ne _ _ hj, getElem_set_ne _ _ hi]

/-- At distinct indices no write of the four covers another. -/
theorem quadAt_setQuadAt (x : Block) (q : Quad) (h : [i, j, k, l].Nodup) :
    quadAt (setQuadAt x i j k l q) i j k l = q := by
  simp only [List.nodup_cons, List.mem_cons, List.not_mem_nil, or_false, not_or] at h
  obtain ⟨⟨hij, hik, hil⟩, ⟨hjk, hjl⟩, hkl, -⟩ := h
  simp only [quadAt, setQuadAt, getElem_set_ne _ _ hij, getElem_set_ne _ _ hik, getElem_set_ne _ _ hil,
    getElem_set_ne _ _ hjk, getElem_set_ne _ _ hjl, getElem_set_ne _ _ hkl, Fin.getElem_fin,
    Vector.getElem_set_self]

/-- An array is its words at four indices and its words elsewhere. -/
theorem block_ext_quadAt {x y : Block} (hq : quadAt x i j k l = quadAt y i j k l)
    (hne : ∀ m : Fin 16, m ≠ i → m ≠ j → m ≠ k → m ≠ l → x[m] = y[m]) : x = y := by
  obtain ⟨hxi, hxj, hxk, hxl⟩ := Quad.mk.inj hq
  have hword : ∀ m : Fin 16, x[m] = y[m] := fun m => by
    by_cases hm : m = i ∨ m = j ∨ m = k ∨ m = l
    · obtain rfl | rfl | rfl | rfl := hm <;> assumption
    · simp only [not_or] at hm
      obtain ⟨hi, hj, hk, hl⟩ := hm
      exact hne m hi hj hk hl
  exact Vector.ext fun n hn => hword ⟨n, hn⟩

/-! ### The quarter-round at four indices -/

theorem quadAt_qrAt (x : Block) (h : [i, j, k, l].Nodup) :
    quadAt (qrAt x i j k l) i j k l = qr (quadAt x i j k l) := quadAt_setQuadAt x _ h

theorem qrAt_getElem_ne {m : Fin 16} (x : Block) (hi : m ≠ i) (hj : m ≠ j) (hk : m ≠ k) (hl : m ≠ l) :
    (qrAt x i j k l)[m] = x[m] := setQuadAt_getElem_ne x _ hi hj hk hl

/-- Two quarter-rounds at disjoint indices do not see each other (R121, R122). -/
theorem quadAt_qrAt_of_disjoint {i' j' k' l' : Fin 16} (x : Block)
    (h : ∀ m ∈ [i', j', k', l'], m ≠ i ∧ m ≠ j ∧ m ≠ k ∧ m ≠ l) :
    quadAt (qrAt x i j k l) i' j' k' l' = quadAt x i' j' k' l' := by
  have hword : ∀ m ∈ [i', j', k', l'], (qrAt x i j k l)[m] = x[m] := fun m hm => by
    obtain ⟨hi, hj, hk, hl⟩ := h m hm
    exact qrAt_getElem_ne x hi hj hk hl
  rw [quadAt, hword i' (by simp), hword j' (by simp), hword k' (by simp), hword l' (by simp), quadAt]

/-- A quarter-round is undone on the four words it replaces, and leaves the others. -/
theorem qrAt_bijective (h : [i, j, k, l].Nodup) : Function.Bijective (qrAt · i j k l) := by
  refine ⟨fun x y (hxy : qrAt x i j k l = qrAt y i j k l) => ?_, fun y => ?_⟩
  · have hq : qr (quadAt x i j k l) = qr (quadAt y i j k l) := by
      rw [← quadAt_qrAt x h, hxy, quadAt_qrAt y h]
    refine block_ext_quadAt (qr_bijective.injective hq) fun m hi hj hk hl => ?_
    rw [← qrAt_getElem_ne x hi hj hk hl, hxy, qrAt_getElem_ne y hi hj hk hl]
  · obtain ⟨q, hq⟩ := qr_bijective.surjective (quadAt y i j k l)
    refine ⟨setQuadAt y i j k l q, block_ext_quadAt (i := i) (j := j) (k := k) (l := l) ?_ fun m hi hj hk hl => ?_⟩
    · rw [quadAt_qrAt _ h, quadAt_setQuadAt _ _ h, hq]
    · rw [qrAt_getElem_ne _ hi hj hk hl, setQuadAt_getElem_ne _ _ hi hj hk hl]

end

/-! ### The rounds -/

/-- Of the four quarter-rounds of the column round one is at a column's indices; the others have none of them. -/
theorem quadAt_columnRound (x : Block) :
    quadAt (columnRound x) 0 4 8 12 = qr (quadAt x 0 4 8 12) ∧
    quadAt (columnRound x) 1 5 9 13 = qr (quadAt x 1 5 9 13) ∧
    quadAt (columnRound x) 2 6 10 14 = qr (quadAt x 2 6 10 14) ∧
    quadAt (columnRound x) 3 7 11 15 = qr (quadAt x 3 7 11 15) := by
  refine ⟨?_, ?_, ?_, ?_⟩ <;> simp (disch := decide) only [columnRound, quadAt_qrAt, quadAt_qrAt_of_disjoint]

/-- The same for the diagonals (R122). -/
theorem quadAt_diagonalRound (x : Block) :
    quadAt (diagonalRound x) 0 5 10 15 = qr (quadAt x 0 5 10 15) ∧
    quadAt (diagonalRound x) 1 6 11 12 = qr (quadAt x 1 6 11 12) ∧
    quadAt (diagonalRound x) 2 7 8 13 = qr (quadAt x 2 7 8 13) ∧
    quadAt (diagonalRound x) 3 4 9 14 = qr (quadAt x 3 4 9 14) := by
  refine ⟨?_, ?_, ?_, ?_⟩ <;> simp (disch := decide) only [diagonalRound, quadAt_qrAt, quadAt_qrAt_of_disjoint]

theorem columnRound_bijective : Function.Bijective columnRound :=
  (qrAt_bijective (by decide)).comp <| (qrAt_bijective (by decide)).comp <|
    (qrAt_bijective (by decide)).comp <| qrAt_bijective (by decide)

theorem diagonalRound_bijective : Function.Bijective diagonalRound :=
  (qrAt_bijective (by decide)).comp <| (qrAt_bijective (by decide)).comp <|
    (qrAt_bijective (by decide)).comp <| qrAt_bijective (by decide)

theorem doubleRound_bijective : Function.Bijective doubleRound :=
  diagonalRound_bijective.comp columnRound_bijective

theorem doubleRounds_eq_iterate (n : Nat) (x : Block) : doubleRounds n x = doubleRound^[n] x := by
  induction n generalizing x with
  | zero => rfl
  | succ n ih => exact ih (doubleRound x)

/-- The permutation is the double-round iterated (R124); `unfold`, because `rw [rounds]` runs into the recursion limit
while Lean makes the equation lemma. -/
theorem rounds_eq_iterate (x : Block) : rounds x = doubleRound^[10] x := by
  unfold rounds
  exact doubleRounds_eq_iterate 10 x

end Sys2Proof.Machine

/-! ### The obligations -/

namespace Sys2Proof.Spec

open Sys2Proof.Machine

/-- Settles O19: the formulas of R127 name the indices of the four quarter-rounds of each round. -/
theorem roundsActOnColumnsAndDiagonals : Obligations.RoundsActOnColumnsAndDiagonals := by
  refine fun x c => ⟨?_, ?_⟩
  · obtain ⟨h0, h1, h2, h3⟩ := quadAt_columnRound x
    fin_cases c
    exacts [h0, h1, h2, h3]
  · obtain ⟨h0, h1, h2, h3⟩ := quadAt_diagonalRound x
    fin_cases c
    exacts [h0, h1, h2, h3]

/-- Settles O20: a round is four bijections one after another, and `rounds` twenty rounds. -/
theorem permutationBijective : Obligations.PermutationBijective := by
  rw [Obligations.PermutationBijective, funext rounds_eq_iterate]
  exact doubleRound_bijective.iterate 10

/-- Settles O21: COMPUTE has one answer, the block of S, and one legal header. -/
theorem computePublishesBlock : Obligations.ComputePublishesBlock := by
  refine ⟨stepRunsDecodedCommand .compute rfl, fun s => ?_,
    fun _ hop hne => answersIllegal_of_reserved (o := .compute) rfl rfl hop hne⟩
  refine ⟨rounds s.S, addBlocks s.S (rounds s.S), rounds_eq_iterate s.S, fun i => ?_, rfl⟩
  rw [addBlocks_getElem, add32_toNat]

/-- Settles O49: COMPUTE leaves the block of S in F, and SER final reads it out. -/
theorem keystreamBlockIsSerialisedSum : Obligations.KeystreamBlockIsSerialisedSum := fun e he =>
  ⟨_, _, isBlockOf_rounds e.S, keystreamBlock_of_idle he rfl rfl⟩

/-- Settles O18: at distinct indices the four writes of `qrAt` are all kept, and they reach no other word. -/
theorem quarterRoundAtIndices : Obligations.QuarterRoundAtIndices := by
  intro x i j k l hij hik hil hjk hjl hkl
  have hdistinct : [i, j, k, l].Nodup := by simp [*]
  exact ⟨quadAt_qrAt x hdistinct, fun m => qrAt_getElem_ne x⟩

end Sys2Proof.Spec

/-! ## Proofs for 44_readout.md: GETST and SER of an array that is present or absent -/

namespace Sys2Proof.Machine

/-! ### The two ends of a read -/

variable {s : State} {sel : Selector}

theorem answered_block (s : State) (b : Block) : s.answered b.toList = s.emit (0x00001000 :: b.toList) := by
  have hstatus : statusWord 0 16 = 0x00001000 := by decide
  rw [State.answered, Vector.length_toList, hstatus]

theorem exec_getst_of_present {b : Block} (hb : s.selected sel = some b) :
    exec (.getst sel) s = .next (s.emit (0x00001000 :: b.toList)) := by
  simp only [exec, execGetst, readArray_present hb, respond_next, answered_block]

/-- A read of an absent array answers OK as any other, with sixteen words that are drawn for it (R28; log 7). -/
theorem exec_getst_of_absent (habsent : s.selected sel = none) : exec (.getst sel) s =
    .next (State.emit { s with draws := s.draws + 16 } (0x00001000 :: (unspecifiedBlock s.draws).toList)) := by
  simp only [exec, execGetst, readArray_absent habsent, respond_next, answered_block]

theorem selected_eq_some {b : Block}
    (h : (sel = .initial ∧ s.S = b) ∨ (sel = .intermediate ∧ s.W = some b) ∨ (sel = .final ∧ s.F = some b)) :
    s.selected sel = some b := by
  obtain ⟨rfl, hS⟩ | ⟨rfl, hW⟩ | ⟨rfl, hF⟩ := h
  · exact congrArg some hS
  · exact hW
  · exact hF

theorem selected_eq_none (h : (sel = .intermediate ∧ s.W = none) ∨ (sel = .final ∧ s.F = none)) :
    s.selected sel = none := by
  obtain ⟨rfl, hW⟩ | ⟨rfl, hF⟩ := h
  · exact hW
  · exact hF

end Sys2Proof.Machine

/-! ### The obligations -/

namespace Sys2Proof.Spec

open Sys2Proof.Machine

/-- An operation that takes a code below 3 in f1 and reserves f2 refuses every other code and field (R69). -/
theorem answersIllegal_of_selector {o : Op} {h : Word} (h1 : o.f1Bound = 3) (h2 : o.f2Bound = 1)
    (hop : h.toNat % 256 = o.code) (hbad : 3 ≤ h.toNat / 256 % 256 ∨ h.toNat / 65536 ≠ 0) : AnswersIllegal h := by
  refine answersIllegal_of_not_isHeader hop fun ho => ?_
  have hf1 : h.toNat / 256 % 256 < 3 := f1Field_toNat h ▸ h1 ▸ ho.f1
  have hf2 : h.toNat / 65536 % 256 < 1 := f2Field_toNat h ▸ h2 ▸ ho.f2
  have hf3 : h.toNat / 16777216 = 0 := f3Field_toNat h ▸ ho.f3
  omega

/-- Settles O27: each packet is GETST's encoding of its selector; the read finds the array, or draws words for it and
leaves the rest. -/
theorem getstAnswersArray : Obligations.GetstAnswersArray := by
  refine ⟨⟨?_, ?_, ?_⟩, fun s => ?_, fun s b hW => ?_, fun s b hF => ?_, fun s sel habsent => ?_, fun h hop hbad => ?_⟩
  · exact stepRunsDecodedCommand (.getst .initial) rfl
  · exact stepRunsDecodedCommand (.getst .intermediate) rfl
  · exact stepRunsDecodedCommand (.getst .final) rfl
  · exact exec_getst_of_present (selected_initial s)
  · exact exec_getst_of_present hW
  · exact exec_getst_of_present hF
  · exact ⟨_, _, exec_getst_of_absent (selected_eq_none habsent), Vector.length_toList, rfl, rfl, rfl, rfl, rfl, rfl⟩
  · exact answersIllegal_of_selector (o := .getst) rfl rfl hop hbad

/-- Settles O28: SER answers what GETST answers, and the bytes of those words are the serialised array. -/
theorem serAnswersLittleEndianBytes : Obligations.SerAnswersLittleEndianBytes := by
  refine ⟨⟨?_, ?_, ?_⟩, fun s sel b hb => ?_, fun s sel habsent => ?_, fun h hop hbad => ?_⟩
  · exact stepRunsDecodedCommand (.ser .initial) rfl
  · exact stepRunsDecodedCommand (.ser .intermediate) rfl
  · exact stepRunsDecodedCommand (.ser .final) rfl
  · refine ⟨b.toList, Vector.length_toList, serialize_getElem? b, ?_⟩
    exact (serAndGetstAgree s sel).trans (exec_getst_of_present (selected_eq_some hb))
  · have hexec := (serAndGetstAgree s sel).trans (exec_getst_of_absent (selected_eq_none habsent))
    exact ⟨_, _, hexec, Vector.length_toList, rfl, rfl, rfl, rfl, rfl, rfl⟩
  · exact answersIllegal_of_selector (o := .ser) rfl rfl hop hbad

end Sys2Proof.Spec

/-! ## Proofs for 45_host_sequences.md: CIPHER.TRANSFORM byte by byte, Ciphers that stay twins, and RANDOM.RAND -/

/-! ### INIT from byte strings -/

namespace Sys2Proof

theorem length_wordsOfBytes (bs : List Byte) : (wordsOfBytes bs).length = ceilWords bs.length := by
  induction bs using wordsOfBytes.induct with
  | case1 b0 b1 b2 b3 rest ih =>
    simp only [wordsOfBytes, List.length_cons, ih, ceilWords]
    omega
  | case2 | case3 | case4 | case5 => simp [wordsOfBytes, ceilWords]

end Sys2Proof

namespace Sys2Proof.Machine

theorem idle_of_transact_ok {i : Instr} {e t : State} {p : List Word} (h : transact i e = (.ok p, t)) :
    e.idle = true := by
  by_contra hne
  simp [transact, hne] at h

/-- A constructor whose INIT is answered OK leaves an idle engine with the S that its arguments give (R90, R141). -/
theorem construct_ok {key nonce : List Byte} {ctr : Word} {e t : State} {p : List Word}
    (h : construct key nonce ctr e = (.ok p, t)) : t.idle = true ∧
      t.S = constructedBlock key.length nonce.length ctr (wordsOfBytes key) (wordsOfBytes nonce) := by
  unfold construct at h
  split at h
  next hlen =>
    obtain ⟨hkey, hnonce⟩ := hlen
    have he := idle_of_transact_ok h
    have hw : WellFormed (initOfBytes (some key) (some nonce) (some ctr)) = true :=
      wellFormed_init hkey hnonce (length_wordsOfBytes key) (length_wordsOfBytes nonce)
    obtain ⟨-, -, hrsp, -⟩ := e.idle_iff.mp he
    by_cases hok : lengthOk key.length Config.keyWords = true ∧ lengthOk nonce.length Config.nonceWords = true
    · obtain ⟨hk, hn⟩ := hok
      rw [transact_of_answered he hw (exec_init_of_lengthOk hk hn) hrsp (by decide)] at h
      cases h
      exact ⟨he, rfl⟩
    · rw [transact_of_failed he hw (exec_init_of_not_lengthOk hok)] at h
      cases h
  next => cases h

/-! ### The block-boundary step and one byte of a transform -/

/-- The boundary step is NEXTBLOCK with the cursor put to 0 first (R144). -/
theorem boundary_of_nextBlock_ok {c : Cipher} {ks : List Byte} {u : State} (h : nextBlock c.engine = (.ok ks, u)) :
    c.boundary = (none, ⟨u, 0, ks⟩) := by
  unfold nextBlock at h
  unfold Cipher.boundary
  split at h
  next => cases h
  next => simp only [h]

theorem boundary_of_nextBlock_error {c : Cipher} {x : HostError} {u : State}
    (h : nextBlock c.engine = (.error x, u)) : c.boundary = (some x, { c with engine := u, sub := 0 }) := by
  unfold nextBlock at h
  unfold Cipher.boundary
  split at h
  next => cases h; rfl
  next => simp only [h]

theorem boundary_sub {c d : Cipher} {o : Option HostError} (h : c.boundary = (o, d)) : d.sub = 0 := by
  rcases hnext : nextBlock c.engine with ⟨_ | _, _⟩
  · rw [boundary_of_nextBlock_error hnext] at h
    cases h
    rfl
  · rw [boundary_of_nextBlock_ok hnext] at h
    cases h
    rfl

/-- A cursor in [0, 64] points into the cached block once the refill is done (R140, R145). -/
theorem refill_sub_lt {c d : Cipher} {o : Option HostError} (hr : c.refill = (o, d)) (h : c.sub ≤ 64) :
    d.sub < 64 := by
  unfold Cipher.refill at hr
  split at hr
  next => rw [boundary_sub hr]; decide
  next hne => cases hr; exact Nat.lt_of_le_of_ne h hne

/-- The Cipher one byte further on. -/
def Cipher.advance (c : Cipher) : Cipher := { c with sub := c.sub + 1 }

@[simp] theorem transform_nil (c : Cipher) : c.transform [] = ⟨[], none, c⟩ := rfl

section
variable {c d : Cipher} (x : Byte) (xs : List Byte)

theorem transform_cons_of_refill_error {err : HostError} (h : c.refill = (some err, d)) :
    c.transform (x :: xs) = ⟨[], some err, d⟩ := by
  simp only [Cipher.transform, h]

theorem transform_cons_of_refill_ok (h : c.refill = (none, d)) : c.transform (x :: xs) =
    { d.advance.transform xs with output := d.mask x :: (d.advance.transform xs).output } := by
  simp only [Cipher.transform, h]
  rfl

end

theorem refill_of_transform_cons {c : Cipher} {x : Byte} {xs : List Byte}
    (h : (c.transform (x :: xs)).failed = none) : ∃ d, c.refill = (none, d) := by
  rcases hr : c.refill with ⟨_ | err, d⟩
  · exact ⟨d, rfl⟩
  · rw [transform_cons_of_refill_error x xs hr] at h
    cases h

/-! ### Twins: Ciphers with the same keystream ahead of them -/

/-- Two idle engines with the same S: what the host reads of the blocks they generate is the same. -/
structure State.Twin (e e' : State) : Prop where
  idle : e.idle = true
  idle' : e'.idle = true
  S : e'.S = e.S

/-- Two Ciphers at the same place of the same keystream. -/
structure Cipher.Twin (c c' : Cipher) : Prop where
  engine : c.engine.Twin c'.engine
  sub : c'.sub = c.sub
  ks : c'.ks = c.ks

theorem keystreamBlock_twin {e e' u : State} {ks : List Byte} (h : e.Twin e')
    (hks : keystreamBlock e = (.ok ks, u)) : ∃ u', keystreamBlock e' = (.ok ks, u') ∧ u.Twin u' := by
  obtain ⟨he, he', hS⟩ := h
  obtain ⟨hok, rfl⟩ := Prod.mk.inj ((keystreamBlock_of_idle he rfl rfl).symm.trans hks)
  have hks' := keystreamBlock_of_idle he' rfl rfl
  rw [hS, hok] at hks'
  exact ⟨_, hks', he, he', hS⟩

theorem nextBlock_twin {e e' u : State} {ks : List Byte} (h : e.Twin e') (hks : nextBlock e = (.ok ks, u)) :
    ∃ u', nextBlock e' = (.ok ks, u') ∧ u.Twin u' := by
  obtain ⟨he, he', hS⟩ := h
  cases hover : counterOverflows e.counter 1 with
  | true =>
    rw [nextBlock_of_overflows he hover] at hks
    cases hks
  | false =>
    have hctr : e'.counter = e.counter := by simp only [State.counter_eq, hS]
    rw [nextBlock_of_not_overflows he hover] at hks
    rw [nextBlock_of_not_overflows he' (hctr ▸ hover), hctr]
    have hincr : (e.writeS 12 (add32 e.counter 1)).Twin (e'.writeS 12 (add32 e.counter 1)) :=
      ⟨he, he', by simp only [State.writeS_S, hS]⟩
    exact keystreamBlock_twin hincr hks

theorem boundary_twin {c c' d : Cipher} (h : c.Twin c') (hb : c.boundary = (none, d)) :
    ∃ d', c'.boundary = (none, d') ∧ d.Twin d' := by
  rcases hnext : nextBlock c.engine with ⟨x | ks, u⟩
  · rw [boundary_of_nextBlock_error hnext] at hb
    cases hb
  · rw [boundary_of_nextBlock_ok hnext] at hb
    cases hb
    obtain ⟨u', hnext', htwin⟩ := nextBlock_twin h.engine hnext
    exact ⟨_, boundary_of_nextBlock_ok hnext', htwin, rfl, rfl⟩

theorem refill_twin {c c' d : Cipher} (h : c.Twin c') (hr : c.refill = (none, d)) :
    ∃ d', c'.refill = (none, d') ∧ d.Twin d' := by
  unfold Cipher.refill at hr ⊢
  rw [h.sub]
  split at hr
  next hsub => rw [if_pos hsub]; exact boundary_twin h hr
  next hsub => rw [if_neg hsub]; cases hr; exact ⟨c', rfl, h⟩

theorem Cipher.Twin.advance {c c' : Cipher} (h : c.Twin c') : c.advance.Twin c'.advance :=
  ⟨h.engine, congrArg (· + 1) h.sub, h.ks⟩

theorem mask_mask_of_twin {c c' : Cipher} (h : c.Twin c') (x : Byte) : c'.mask (c.mask x) = x := by
  simp only [Cipher.mask, h.sub, h.ks, BitVec.xor_assoc, BitVec.xor_self, BitVec.xor_zero]

/-- Twins refill together and mask with the same byte, so the second undoes what the first does (R146). -/
theorem transform_twin {c c' : Cipher} (xs : List Byte) (h : c.Twin c') (hok : (c.transform xs).failed = none) :
    (c'.transform (c.transform xs).output).failed = none ∧ (c'.transform (c.transform xs).output).output = xs := by
  induction xs generalizing c c' with
  | nil => exact ⟨rfl, rfl⟩
  | cons x xs ih =>
    obtain ⟨d, hr⟩ := refill_of_transform_cons hok
    obtain ⟨d', hr', htwin⟩ := refill_twin h hr
    rw [transform_cons_of_refill_ok x xs hr] at hok ⊢
    rw [transform_cons_of_refill_ok _ _ hr']
    obtain ⟨hfailed, hout⟩ := ih htwin.advance hok
    exact ⟨hfailed, congrArg₂ List.cons (mask_mask_of_twin htwin x) hout⟩

/-- A Cipher is made of the engine its arguments construct, that engine's first block and the cursor given (R141). -/
theorem cipherNew_ok {key nonce : List Byte} {ctr : Word} {sub : Int} {e u : State} {c : Cipher}
    (h : cipherNew key nonce ctr sub e = (.ok c, u)) : ∃ p t, construct key nonce ctr e = (.ok p, t) ∧
      keystreamBlock t = (.ok c.ks, c.engine) ∧ c.sub = sub.toNat := by
  unfold cipherNew at h
  split at h
  next =>
    split at h
    next => cases h
    next p t hcon =>
      split at h
      next => cases h
      next ks v hks => cases h; exact ⟨p, t, hcon, hks, rfl⟩
  next => cases h

theorem cipherNew_twin {key nonce : List Byte} {ctr : Word} {sub : Int} {e e' u u' : State} {c c' : Cipher}
    (h : cipherNew key nonce ctr sub e = (.ok c, u)) (h' : cipherNew key nonce ctr sub e' = (.ok c', u')) :
    c.Twin c' := by
  obtain ⟨p, t, hcon, hks, hsub⟩ := cipherNew_ok h
  obtain ⟨p', t', hcon', hks', hsub'⟩ := cipherNew_ok h'
  obtain ⟨hidle, hS⟩ := construct_ok hcon
  obtain ⟨hidle', hS'⟩ := construct_ok hcon'
  obtain ⟨v, hv, htwin⟩ := keystreamBlock_twin ⟨hidle, hidle', hS'.trans hS.symm⟩ hks
  obtain ⟨hok, rfl⟩ := Prod.mk.inj (hks'.symm.trans hv)
  exact ⟨htwin, hsub'.trans hsub.symm, Except.ok.inj hok⟩

/-! ### One call of RANDOM.RAND -/

theorem transact_compute {e : State} (he : e.idle = true) :
    transact .compute e = (.ok [], e.publish (rounds e.S) (addBlocks e.S (rounds e.S))) := by
  obtain ⟨-, -, hrsp, -⟩ := e.idle_iff.mp he
  exact transact_of_answered he rfl rfl hrsp (by decide)

theorem transact_getst_final {e : State} {f : Block} (he : e.idle = true) (hF : e.F = some f) :
    transact (.getst .final) e = (.ok f.toList, e) := by
  obtain ⟨-, -, hrsp, -⟩ := e.idle_iff.mp he
  have hexec : exec (.getst .final) e = .next (e.answered f.toList) := by
    rw [exec_getst_of_present (sel := .final) hF, answered_block]
  exact transact_of_answered he rfl hexec hrsp (by simp)

/-- COMPUTE and GETST final on an idle engine give the block of its S as words (R152). -/
theorem finalWords_of_idle {e : State} (he : e.idle = true) : finalWords e =
    (.ok (addBlocks e.S (rounds e.S)).toList, e.publish (rounds e.S) (addBlocks e.S (rounds e.S))) := by
  have hidle : (e.publish (rounds e.S) (addBlocks e.S (rounds e.S))).idle = true := he
  simp only [finalWords, transact_compute he, transact_getst_final hidle rfl]

section
variable {r : RandomSeq} {t : State}

theorem rand_of_lt (h : r.widx < 15) : r.rand = (.ok (r.fw.getD r.widx 0), { r with widx := r.widx + 1 }) :=
  if_neg (by omega)

theorem rand_of_incr_error {x : HostError} (h : r.widx = 15)
    (hincr : transact (incrDefault none) r.engine = (.error x, t)) :
    r.rand = (.error x, { r with engine := t, widx := 0 }) := by
  simp only [RandomSeq.rand, h, hincr, if_true]

theorem rand_of_refilled {p ws : List Word} {u : State} (h : r.widx = 15)
    (hincr : transact (incrDefault none) r.engine = (.ok p, t)) (hfinal : finalWords t = (.ok ws, u)) :
    r.rand = (.ok (r.fw.getD 15 0), ⟨u, 0, ws⟩) := by
  simp only [RandomSeq.rand, h, hincr, hfinal, if_true]

end

end Sys2Proof.Machine

/-! ### The obligations -/

namespace Sys2Proof.Spec

open Sys2Proof.Machine

/-- Settles O51: Ciphers made with equal arguments are twins. -/
theorem cipherRoundTrip : Obligations.CipherRoundTrip :=
  fun _ _ _ _ _ _ _ _ _ _ xs h1 h2 hok => transform_twin xs (cipherNew_twin h1 h2) hok

/-- Settles O52, by induction on the first byte string: each of its bytes leaves the same Cipher in both runs. -/
theorem transformContinues : Obligations.TransformContinues := by
  intro c xs ys hok
  induction xs generalizing c with
  | nil => exact ⟨rfl, rfl, rfl⟩
  | cons x xs ih =>
    obtain ⟨d, hr⟩ := refill_of_transform_cons hok
    rw [transform_cons_of_refill_ok x xs hr] at hok ⊢
    rw [List.cons_append, transform_cons_of_refill_ok x _ hr]
    obtain ⟨hout, hcipher, hfailed⟩ := ih d.advance hok
    exact ⟨congrArg (d.mask x :: ·) hout, hcipher, hfailed⟩

/-- Settles O53, by induction on the input: a byte gives one byte or aborts, and the refill before it leaves a cursor
below 64. -/
theorem transformLengthAndCursor : Obligations.TransformLengthAndCursor := by
  intro c xs
  induction xs generalizing c with
  | nil => exact ⟨fun _ => rfl, fun hne => absurd rfl hne, id⟩
  | cons x xs ih =>
    rcases hr : c.refill with ⟨_ | err, d⟩
    · obtain ⟨hlen, hshort, hsub⟩ := ih d.advance
      rw [transform_cons_of_refill_ok x xs hr]
      exact ⟨fun hok => congrArg (· + 1) (hlen hok), fun hne => Nat.succ_lt_succ (hshort hne),
        fun hle => hsub (refill_sub_lt hr hle)⟩
    · rw [transform_cons_of_refill_error x xs hr]
      exact ⟨nofun, fun _ => Nat.succ_pos _, fun hle => (refill_sub_lt hr hle).le⟩

/-- Settles O56: INCR 1 is answered with the advanced counter, whose block is then read, or with CounterOverflow, which
leaves the engine and the cache. -/
theorem randReturnsWordOrOverflows : Obligations.RandReturnsWordOrOverflows := by
  obtain ⟨-, hadds, hoverflows, -⟩ := incrAddsOrOverflows
  refine ⟨fun r => rand_of_lt, fun r hwidx he hlt => ?_, fun r hwidx he hmax => ?_⟩
  · obtain ⟨b, hctr, hrest, hexec⟩ := hadds 1 r.engine hlt
    obtain ⟨-, -, hrsp, -⟩ := r.engine.idle_iff.mp he
    have hincr : transact (incrDefault none) r.engine = (.ok [], { r.engine with S := b }) :=
      transact_of_answered he rfl hexec hrsp (by decide)
    have hidle : State.idle { r.engine with S := b } = true := he
    exact ⟨b, _, _, hctr, hrest, isBlockOf_rounds b, rand_of_refilled hwidx hincr (finalWords_of_idle hidle)⟩
  · have hexec := hoverflows 1 r.engine (by rw [hmax]; decide)
    exact rand_of_incr_error hwidx (transact_of_failed he rfl hexec)

/-- Settles O55: the two ranges are the two branches of the bounds check. -/
theorem setSubBoundsChecked : Obligations.SetSubBoundsChecked := by
  refine fun c i => ⟨fun hin => if_pos ((inRange_iff i 64).mpr hin), fun hout => if_neg fun hin => ?_⟩
  obtain ⟨hlo, hhi⟩ := (inRange_iff i 64).mp hin
  omega

end Sys2Proof.Spec

/-! ## Proofs for 60_exceptions.md: what a command answers, and that errors leave nothing behind -/

namespace Sys2Proof.Machine

/-! ### Responses and their status -/

theorem statusField_statusWord_zero (n : Nat) : statusField (statusWord 0 n) = 0 := by
  simp only [statusField, statusWord, BitVec.extractLsb'_toNat, BitVec.toNat_ofNat, Nat.shiftRight_zero]
  omega

theorem ErrorCode.one_le_code (e : ErrorCode) : 1 ≤ e.code := by cases e <;> decide

theorem ErrorCode.code_lt_256 (e : ErrorCode) : e.code < 256 := Nat.lt_of_le_of_lt e.code_le (by decide)

theorem statusWord_error_toNat (e : ErrorCode) : (statusWord e.code 0).toNat = e.code :=
  statusWord_toNat e.code_lt_256 (by decide)

/-- Only an error answers a status other than 0, and it changes nothing but the response stream (R65, R166). -/
theorem State.Completes.failed_of_status_ne_zero {s t : State} {c : Word} {payload : List Word} (h : s.Completes t)
    (hrsp : t.rsp = s.rsp ++ c :: payload) (hc : statusField c ≠ 0) :
    ∃ e : ErrorCode, t = s.failed e ∧ c = statusWord e.code 0 ∧ payload = [] := by
  cases h with
  | answered _ hu _ =>
    rw [State.answered_rsp, hu] at hrsp
    obtain ⟨rfl, -⟩ := List.cons.inj (List.append_cancel_left hrsp)
    exact absurd (statusField_statusWord_zero _) hc
  | failed e =>
    obtain ⟨rfl, rfl⟩ := List.cons.inj (List.append_cancel_left hrsp)
    exact ⟨e, rfl, rfl, rfl⟩

/-- A step on a whole packet, legal or illegal, consumes it and ends as a command does (R69, R166). -/
theorem step_packet_completes {s t : State} {p rest : List Word} (hs : s.Ready) (hp : IsPacket p)
    (harr : s.held ++ s.cmd = p ++ rest) (h : step s = .next t) : (s.consume rest).Completes t := by
  rw [← State.arrived_eq] at harr
  obtain ⟨i, hd⟩ | ⟨why, hd⟩ := decode_isPacket_append hp
  · exact exec_completes ((step_command hs (harr ▸ hd rest)).symm.trans h)
  · cases (step_illegal hs (harr ▸ hd rest)).symm.trans h
    exact .failed _

/-! ### A command's response, whatever stands before it on the response stream -/

theorem statusField_statusWord_zero_mem (i : Instr) (n : Nat) :
    statusField (statusWord 0 n) ∈ Spec.possibleStatus i := by
  rw [statusField_statusWord_zero]
  cases i <;> exact List.mem_cons_self

theorem statusField_error_mem {i : Instr} {e : ErrorCode} (h : e.code ∈ Spec.possibleStatus i) :
    statusField (statusWord e.code 0) ∈ Spec.possibleStatus i := by
  rwa [statusField_statusWord e.code_lt_256 (by decide)]

/-- A read answers OK and sixteen words that do not depend on the response stream (R135). -/
theorem exec_getst_appends (sel : Selector) (s : State) : ∃ (u : State) (payload : List Word), ∀ r : List Word,
    exec (.getst sel) { s with rsp := r } = .next { u with rsp := r ++ 0x00001000 :: payload } := by
  have hsame (r : List Word) : State.selected { s with rsp := r } sel = s.selected sel := by cases sel <;> rfl
  cases hsel : s.selected sel with
  | some b => exact ⟨s, b.toList, fun r => exec_getst_of_present ((hsame r).trans hsel)⟩
  | none =>
    exact ⟨{ s with draws := s.draws + 16 }, (unspecifiedBlock s.draws).toList,
      fun r => exec_getst_of_absent ((hsame r).trans hsel)⟩

/-- What a command does to the state and the response it gives are fixed before the response stream is known: it appends
that response, with a status the command has, to whatever words stand there (R168, R169). -/
theorem exec_appends_response (i : Instr) (s : State) : ∃ (u : State) (c : Word) (payload : List Word),
    statusField c ∈ Spec.possibleStatus i ∧
      ∀ r : List Word, exec i { s with rsp := r } = .next { u with rsp := r ++ c :: payload } := by
  cases i with
  | init klen nlen ctr key nonce =>
    by_cases hok : lengthOk klen Config.keyWords = true ∧ lengthOk nlen Config.nonceWords = true
    · exact ⟨s.construct (constructedBlock klen nlen ctr key nonce), _, _, statusField_statusWord_zero_mem _ 0,
        fun r => exec_init_of_lengthOk hok.1 hok.2⟩
    · exact ⟨s, _, _, statusField_error_mem (e := .lengthError) (.tail _ (.head _)),
        fun r => exec_init_of_not_lengthOk hok⟩
  | setw sec idx v =>
    by_cases hin : inRange idx (sectionLength sec) = true
    · exact ⟨s.writeS (sectionBase sec + idx.toNat) v, _, _, statusField_statusWord_zero_mem _ 0,
        fun r => exec_setw_of_inRange hin⟩
    · exact ⟨s, _, _, statusField_error_mem (e := .indexError) (.tail _ (.head _)),
        fun r => exec_setw_of_not_inRange hin⟩
  | incr delta =>
    by_cases hover : counterOverflows s.counter delta = true
    · exact ⟨s, _, _, statusField_error_mem (e := .counterOverflow) (.tail _ (.head _)),
        fun r => exec_incr_of_overflows hover⟩
    · exact ⟨s.writeS 12 (add32 s.counter delta), _, _, statusField_statusWord_zero_mem _ 0,
        fun r => exec_incr_of_not_overflows (Bool.eq_false_iff.mpr hover)⟩
  | rotl32 v n =>
    by_cases hin : inRange n 32 = true
    · exact ⟨s, _, _, statusField_statusWord_zero_mem _ 1, fun r => exec_rotl32_of_inRange hin⟩
    · exact ⟨s, _, _, statusField_error_mem (e := .rangeError) (.tail _ (.head _)),
        fun r => exec_rotl32_of_not_inRange hin⟩
  | getst sel =>
    obtain ⟨u, payload, hexec⟩ := exec_getst_appends sel s
    exact ⟨u, _, payload, statusField_statusWord_zero_mem _ 16, hexec⟩
  | ser sel =>
    obtain ⟨u, payload, hexec⟩ := exec_getst_appends sel s
    exact ⟨u, _, payload, statusField_statusWord_zero_mem _ 16,
      fun r => (Spec.serAndGetstAgree _ sel).trans (hexec r)⟩
  | compute =>
    exact ⟨s.publish (rounds s.S) (addBlocks s.S (rounds s.S)), _, _, statusField_statusWord_zero_mem _ 0,
      fun r => rfl⟩
  | getctr => exact ⟨s, _, [s.counter], statusField_statusWord_zero_mem _ 1, fun r => rfl⟩
  | add32 a b => exact ⟨s, _, [add32 a b], statusField_statusWord_zero_mem _ 1, fun r => rfl⟩
  | xor32 a b => exact ⟨s, _, [xor32 a b], statusField_statusWord_zero_mem _ 1, fun r => rfl⟩
  | qround a b c d => exact ⟨s, _, _, statusField_statusWord_zero_mem _ 4, fun r => exec_qround ⟨a, b, c, d⟩ _⟩

end Sys2Proof.Machine

/-! ### The obligations -/

namespace Sys2Proof.Spec

open Sys2Proof.Machine

/-- Settles O32: a whole packet ends as a command does on the state with the packet consumed, and of those ends only an
error has a status other than 0. -/
theorem failedCommandChangesNothing : Obligations.FailedCommandChangesNothing := by
  intro s t h p rest c payload hs harr hp hstep hrsp hc
  have hpacket : IsPacket (h :: p) := hp
  obtain ⟨e, rfl, rfl, rfl⟩ := (step_packet_completes hs hpacket harr hstep).failed_of_status_ne_zero hrsp hc
  rw [statusWord_error_toNat]
  exact ⟨rfl, e.one_le_code, e.code_le, rfl⟩

/-- Settles O34: the first word after the earlier responses is the status word of the command's own response. -/
theorem statusOfEachCommand : Obligations.StatusOfEachCommand := by
  intro i s t c payload h hrsp
  obtain ⟨u, c', payload', hstatus, hexec⟩ := exec_appends_response i s
  cases (hexec s.rsp).symm.trans h
  obtain ⟨rfl, -⟩ := List.cons.inj (List.append_cancel_left hrsp)
  exact hstatus

/-- Settles O35: the same response is appended to `s.rsp` and to `r`, and dropping the words of `s.rsp` leaves it. -/
theorem earlierResponsesChangeNoCommand : Obligations.EarlierResponsesChangeNoCommand := by
  intro i s t r h
  obtain ⟨u, c, payload, -, hexec⟩ := exec_appends_response i s
  cases (hexec s.rsp).symm.trans h
  rw [hexec r, List.drop_left]

end Sys2Proof.Spec

/-! ## Proofs for 70_reset_and_hazards.md: the reset event, the two stuck situations, and what R194 leaves behind -/

namespace Sys2Proof.Machine

variable {s : State}

/-! ### The steps that perform no packet -/

/-- The reset event is taken before anything else (R185, R187; log 5). -/
theorem step_of_rst (hrst : s.rst = true) : step s = .next s.takeReset := by
  simp [step, fetch, hrst]

/-- Without room the engine does not even receive words (U10; log 4). -/
theorem step_of_noRoom (hrst : s.rst = false) (hroom : s.room = false) : step s = .fault .responseNotTaken := by
  simp [step, fetch, hrst, hroom]

/-- With no word waiting, what has arrived is an incomplete packet exactly when the words held are (R32, R71). -/
theorem decode_arrived_incomplete_iff (hc : s.cmd = []) : decode s.arrived = .incomplete ↔ s.HeldPartial := by
  rw [State.arrived_eq, hc, List.append_nil]
  exact decode_incomplete_iff s.held

theorem step_of_waiting (hs : s.Ready) (hc : s.cmd = []) (hheld : s.HeldPartial) :
    step s = .fault .awaitingPacket := by
  obtain ⟨hrst, hroom⟩ := hs
  have hd := (decode_arrived_incomplete_iff hc).mpr hheld
  simp [step, fetch, receive, hrst, hroom, hc, hd, -State.arrived_eq]

/-- Every step answers a next state but for the two stuck situations of U10; none is refused. -/
theorem step_next_or_stuck (s : State) : (∃ t, step s = .next t) ∨
    (s.rst = false ∧ s.room = false ∧ step s = .fault .responseNotTaken) ∨
    (s.Ready ∧ s.cmd = [] ∧ s.HeldPartial ∧ step s = .fault .awaitingPacket) := by
  cases hrst : s.rst with
  | true => exact .inl ⟨_, step_of_rst hrst⟩
  | false =>
    cases hroom : s.room with
    | false => exact .inr (.inl ⟨rfl, rfl, step_of_noRoom hrst hroom⟩)
    | true =>
      have hs : s.Ready := ⟨hrst, hroom⟩
      cases hd : decode s.arrived with
      | command i rest => exact .inl (step_command hs hd ▸ exec_total i _)
      | illegal why rest => exact .inl ⟨_, step_illegal hs hd⟩
      | incomplete =>
        by_cases hc : s.cmd = []
        · have hheld := (decode_arrived_incomplete_iff hc).mp hd
          exact .inr (.inr ⟨hs, hc, hheld, step_of_waiting hs hc hheld⟩)
        · exact .inl ⟨_, step_incomplete hs hd hc⟩

theorem step_ne_refused (s : State) (r : Refusal) : step s ≠ .refused r := by
  intro h
  obtain ⟨t, hstep⟩ | ⟨-, -, hstep⟩ | ⟨-, -, -, hstep⟩ := step_next_or_stuck s <;> cases hstep.symm.trans h

/-- Each fault of a step has one cause (U10). -/
theorem step_fault_cases {f : Fault} (h : step s = .fault f) :
    (f = .responseNotTaken ∧ s.rst = false ∧ s.room = false) ∨
    (f = .awaitingPacket ∧ s.Ready ∧ s.cmd = [] ∧ s.HeldPartial) := by
  obtain ⟨t, hstep⟩ | ⟨hrst, hroom, hstep⟩ | ⟨hs, hc, hheld, hstep⟩ := step_next_or_stuck s <;>
    cases hstep.symm.trans h
  · exact .inl ⟨rfl, hrst, hroom⟩
  · exact .inr ⟨rfl, hs, hc, hheld⟩

/-! ### The words of an absent array -/

theorem unspecifiedBlock_getElem? (n : Nat) (k : Fin 16) :
    (unspecifiedBlock n).toList[k.val]? = some (Config.freeWord (n + k.val)) := by
  simp [unspecifiedBlock]

end Sys2Proof.Machine

/-! ### The obligations -/

namespace Sys2Proof.Spec

open Sys2Proof.Machine

/-- Settles O54: the boundary step is NEXTBLOCK with the cursor put to 0, and NEXTBLOCK leaves the engine as it was. -/
theorem overflowedCipherKeepsOldBlock : Obligations.OverflowedCipherKeepsOldBlock := by
  intro c he hmax
  obtain ⟨-, hoverflows⟩ := nextBlockAdvancesOrOverflows
  exact boundary_of_nextBlock_error (hoverflows c.engine he hmax)

/-- Settles O9: each fault has its one cause, and each cause gives its fault. -/
theorem stuckExactlyWhenWaiting : Obligations.StuckExactlyWhenWaiting := by
  refine fun s => ⟨⟨fun h => ?_, fun ⟨hrst, hroom⟩ => step_of_noRoom hrst hroom⟩,
    ⟨fun h => ?_, fun ⟨hrst, hroom, hc, hheld⟩ => step_of_waiting ⟨hrst, hroom⟩ hc hheld⟩, step_ne_refused s⟩
  · obtain ⟨-, hrst, hroom⟩ | ⟨hf, -⟩ := step_fault_cases h
    · exact ⟨hrst, hroom⟩
    · cases hf
  · obtain ⟨hf, -⟩ | ⟨-, ⟨hrst, hroom⟩, hc, hheld⟩ := step_fault_cases h
    · cases hf
    · exact ⟨hrst, hroom, hc, hheld⟩

/-- Settles O31: GETST draws the sixteen free words, and SER answers what GETST answers. -/
theorem absentReadDrawsFreeWords : Obligations.AbsentReadDrawsFreeWords := by
  intro s sel habsent
  have hgetst := exec_getst_of_absent habsent
  exact ⟨_, Vector.length_toList, unspecifiedBlock_getElem? s.draws, hgetst, (serAndGetstAgree s sel).trans hgetst⟩

/-- Settles O46: the step is `takeReset`, which keeps `cmd`, `room` and `draws`. -/
theorem resetEventFromAnyState : Obligations.ResetEventFromAnyState := fun s hrst =>
  ⟨s.takeReset, step_of_rst hrst, rfl, rfl, rfl, rfl, rfl, rfl, rfl, rfl, rfl⟩

end Sys2Proof.Spec
